-- ==== Sys2Proof/Word.lean ====
section
/-! DEFINITION. The widths of the machine's values (spec/00_scope.md R6, R11; spec/30_encoding.md R91). -/

namespace Sys2Proof

/-- A 4-bit field of an instruction word: CAT, X, Y, N (R91). -/
abbrev Nibble := BitVec 4

/-- A memory cell, a V register, a timer, the field NN (R6, R91). -/
abbrev Byte := BitVec 8

/-- The 12-bit address field NNN (R91). -/
abbrev Addr := BitVec 12

/-- An instruction word, I, pc, a return address, the key vector (R6, R44). -/
abbrev Word := BitVec 16

/-- The index of a V register: V0 is 0, VF is 15 (spec/10_state.md R20). -/
abbrev Reg := Fin 16

/-- VF, the register that doubles as the flag (spec/10_state.md R22). -/
abbrev VF : Reg := 15

end Sys2Proof
end

