-- ==== Sys2Proof/Syntax.lean ====
section
/-! DEFINITION. The instructions: one constructor for each of the 38 rows of spec/opcode_table.json, in the table's order
(spec/30_encoding.md R95). Operands are the row's fields, X and Y as register indexes (R93). -/

namespace Sys2Proof

/-- An instruction as the decoder gives it. -/
inductive Instr where
  /-- 00E0, row 1 `CLS` (R190). -/
  | cls
  /-- 00EE, row 2 `RET` (R121). -/
  | ret
  /-- 0NNN, row 3 `NOP0`: every other word of category 0 (R99, R120). -/
  | nop0 (nnn : Addr)
  /-- 1NNN, row 4 `JP` (R122). -/
  | jp (nnn : Addr)
  /-- 2NNN, row 5 `CALL` (R123). -/
  | call (nnn : Addr)
  /-- 3XNN, row 6 `SE_IMM` (R124). -/
  | seImm (x : Reg) (nn : Byte)
  /-- 4XNN, row 7 `SNE_IMM` (R125). -/
  | sneImm (x : Reg) (nn : Byte)
  /-- 5XYn, row 8 `SE_REG`; the low nibble is not decoded (R101, R126). -/
  | seReg (x y : Reg)
  /-- 6XNN, row 9 `LD_IMM` (R140). -/
  | ldImm (x : Reg) (nn : Byte)
  /-- 7XNN, row 10 `ADD_IMM` (R141). -/
  | addImm (x : Reg) (nn : Byte)
  /-- 8XY0, row 11 `LD_REG` (R143). -/
  | ldReg (x y : Reg)
  /-- 8XY1, row 12 `OR` (R144). -/
  | orReg (x y : Reg)
  /-- 8XY2, row 13 `AND` (R145). -/
  | andReg (x y : Reg)
  /-- 8XY3, row 14 `XOR` (R146). -/
  | xorReg (x y : Reg)
  /-- 8XY4, row 15 `ADD_REG` (R147). -/
  | addReg (x y : Reg)
  /-- 8XY5, row 16 `SUB` (R148). -/
  | sub (x y : Reg)
  /-- 8XY6, row 17 `SHR`; y is decoded and not used (R108, R149). -/
  | shr (x y : Reg)
  /-- 8XY7, row 18 `SUBN` (R150). -/
  | subn (x y : Reg)
  /-- 8XYE, row 19 `SHL`; y is decoded and not used (R108, R151). -/
  | shl (x y : Reg)
  /-- 8XYn with n in 8..D or F, row 20 `NOP8` (R100, R152). -/
  | nop8 (x y : Reg) (n : Nibble)
  /-- 9XYn, row 21 `SNE_REG`; the low nibble is not decoded (R101, R127). -/
  | sneReg (x y : Reg)
  /-- ANNN, row 22 `LD_I` (R170). -/
  | ldI (nnn : Addr)
  /-- BNNN, row 23 `JP_V0` (R128). -/
  | jpV0 (nnn : Addr)
  /-- CXNN, row 24 `RND` (R153). -/
  | rnd (x : Reg) (nn : Byte)
  /-- DXYN, row 25 `DRW` (R191). -/
  | drw (x y : Reg) (n : Nibble)
  /-- EX9E, row 26 `SKP` (R200). -/
  | skp (x : Reg)
  /-- EXA1, row 27 `SKNP` (R201). -/
  | sknp (x : Reg)
  /-- EXNN with any other NN, row 28 `ILL_E` (R102, R206). -/
  | illE (x : Reg) (nn : Byte)
  /-- FX07, row 29 `LD_VX_DT` (R203). -/
  | ldVxDt (x : Reg)
  /-- FX0A, row 30 `LD_VX_K` (R202). -/
  | ldVxK (x : Reg)
  /-- FX15, row 31 `LD_DT_VX` (R204). -/
  | ldDtVx (x : Reg)
  /-- FX18, row 32 `LD_ST_VX` (R205). -/
  | ldStVx (x : Reg)
  /-- FX1E, row 33 `ADD_I` (R171). -/
  | addI (x : Reg)
  /-- FX29, row 34 `LD_F` (R172). -/
  | ldF (x : Reg)
  /-- FX33, row 35 `LD_B` (R173). -/
  | ldB (x : Reg)
  /-- FX55, row 36 `ST_REGS` (R174). -/
  | stRegs (x : Reg)
  /-- FX65, row 37 `LD_REGS` (R175). -/
  | ldRegs (x : Reg)
  /-- FXNN with any other NN, row 38 `ILL_F` (R103, R207). -/
  | illF (x : Reg) (nn : Byte)
deriving DecidableEq, Repr

end Sys2Proof
end

