-- ==== Sys2Proof/WellFormed.lean ====
section
/-! DEFINITION. Which terms of Instr are instructions of the machine: the catch-all rows hold only the words that no
earlier row of their category takes (spec/30_encoding.md R98). -/

namespace Sys2Proof

/-- The NNN codes of category 0 that are opcodes of their own: CLS and RET (R94, R99). -/
def assigned0 : List Addr := [0x0E0, 0x0EE]

/-- The N codes of category 8 that are opcodes: 0 to 7 and E (R98, R100). -/
def assigned8 : List Nibble := [0, 1, 2, 3, 4, 5, 6, 7, 0xE]

/-- The NN codes of category E that are opcodes (R98, R102). -/
def assignedE : List Byte := [0x9E, 0xA1]

/-- The NN codes of category F that are opcodes (R98, R103). -/
def assignedF : List Byte := [0x07, 0x0A, 0x15, 0x18, 0x1E, 0x29, 0x33, 0x55, 0x65]

/-- An instruction of the machine: a catch-all's sub-opcode is an unassigned one (R98). -/
def Instr.wellFormed : Instr → Bool
  | .nop0 nnn => !assigned0.contains nnn
  | .nop8 _ _ n => !assigned8.contains n
  | .illE _ nn => !assignedE.contains nn
  | .illF _ nn => !assignedF.contains nn
  | .cls | .ret | .jp _ | .call _ | .seImm _ _ | .sneImm _ _ | .seReg _ _ | .ldImm _ _ | .addImm _ _ => true
  | .ldReg _ _ | .orReg _ _ | .andReg _ _ | .xorReg _ _ | .addReg _ _ | .sub _ _ | .shr _ _ | .subn _ _ => true
  | .shl _ _ | .sneReg _ _ | .ldI _ | .jpV0 _ | .rnd _ _ | .drw _ _ _ | .skp _ | .sknp _ | .ldVxDt _ => true
  | .ldVxK _ | .ldDtVx _ | .ldStVx _ | .addI _ | .ldF _ | .ldB _ | .stRegs _ | .ldRegs _ => true

end Sys2Proof
end

