-- ==== Sys2Proof/Decode.lean ====
section
/-! DEFINITION. The decoder, from the fields of spec/30_encoding.md R91 and the opcode map of R95, and the encoder, from
the same map. Decoding a word cannot fail (R93, R97); only a byte list shorter than a word is rejected, by name. -/

namespace Sys2Proof

/-- CAT, bits 15 to 12 (R91). -/
def catOf (w : Word) : Nibble := w.extractLsb' 12 4

/-- X, bits 11 to 8, as a register index (R91). -/
def xOf (w : Word) : Reg := (w.extractLsb' 8 4).toFin

/-- Y, bits 7 to 4, as a register index (R91). -/
def yOf (w : Word) : Reg := (w.extractLsb' 4 4).toFin

/-- N, bits 3 to 0 (R91). -/
def nOf (w : Word) : Nibble := w.extractLsb' 0 4

/-- NN, bits 7 to 0 (R91). -/
def nnOf (w : Word) : Byte := w.extractLsb' 0 8

/-- NNN, bits 11 to 0 (R91). -/
def nnnOf (w : Word) : Addr := w.extractLsb' 0 12

/-- Category 0: only the exact words 00E0 and 00EE are opcodes (R94, R99). -/
def decode0 (w : Word) : Instr :=
  if nnnOf w = 0x0E0 then .cls
  else if nnnOf w = 0x0EE then .ret
  else .nop0 (nnnOf w)

/-- Category 8, sub-dispatched on N (R94, R95 rows 11 to 20). -/
def decode8 (w : Word) : Instr :=
  if nOf w = 0x0 then .ldReg (xOf w) (yOf w)
  else if nOf w = 0x1 then .orReg (xOf w) (yOf w)
  else if nOf w = 0x2 then .andReg (xOf w) (yOf w)
  else if nOf w = 0x3 then .xorReg (xOf w) (yOf w)
  else if nOf w = 0x4 then .addReg (xOf w) (yOf w)
  else if nOf w = 0x5 then .sub (xOf w) (yOf w)
  else if nOf w = 0x6 then .shr (xOf w) (yOf w)
  else if nOf w = 0x7 then .subn (xOf w) (yOf w)
  else if nOf w = 0xE then .shl (xOf w) (yOf w)
  else .nop8 (xOf w) (yOf w) (nOf w)

/-- Category E, sub-dispatched on NN (R94, R95 rows 26 to 28). -/
def decodeE (w : Word) : Instr :=
  if nnOf w = 0x9E then .skp (xOf w)
  else if nnOf w = 0xA1 then .sknp (xOf w)
  else .illE (xOf w) (nnOf w)

/-- Category F, sub-dispatched on NN (R94, R95 rows 29 to 38). -/
def decodeF (w : Word) : Instr :=
  if nnOf w = 0x07 then .ldVxDt (xOf w)
  else if nnOf w = 0x0A then .ldVxK (xOf w)
  else if nnOf w = 0x15 then .ldDtVx (xOf w)
  else if nnOf w = 0x18 then .ldStVx (xOf w)
  else if nnOf w = 0x1E then .addI (xOf w)
  else if nnOf w = 0x29 then .ldF (xOf w)
  else if nnOf w = 0x33 then .ldB (xOf w)
  else if nnOf w = 0x55 then .stRegs (xOf w)
  else if nnOf w = 0x65 then .ldRegs (xOf w)
  else .illF (xOf w) (nnOf w)

/-- The instruction of a word, dispatched on CAT (R94). All sixteen categories are assigned (R97, R104), so the last
branch is category F. -/
def decodeWord (w : Word) : Instr :=
  if catOf w = 0x0 then decode0 w
  else if catOf w = 0x1 then .jp (nnnOf w)
  else if catOf w = 0x2 then .call (nnnOf w)
  else if catOf w = 0x3 then .seImm (xOf w) (nnOf w)
  else if catOf w = 0x4 then .sneImm (xOf w) (nnOf w)
  else if catOf w = 0x5 then .seReg (xOf w) (yOf w)
  else if catOf w = 0x6 then .ldImm (xOf w) (nnOf w)
  else if catOf w = 0x7 then .addImm (xOf w) (nnOf w)
  else if catOf w = 0x8 then decode8 w
  else if catOf w = 0x9 then .sneReg (xOf w) (yOf w)
  else if catOf w = 0xA then .ldI (nnnOf w)
  else if catOf w = 0xB then .jpV0 (nnnOf w)
  else if catOf w = 0xC then .rnd (xOf w) (nnOf w)
  else if catOf w = 0xD then .drw (xOf w) (yOf w) (nOf w)
  else if catOf w = 0xE then decodeE w
  else decodeF w

/-- A word from its two bytes as memory holds them, the byte at the lower address first (spec/20_memory.md R68). -/
def wordOfBytes (hi lo : Byte) : Word := hi ++ lo

/-- What decoding a list of bytes answers. -/
inductive Decoded where
  /-- The instruction of the first word, and the bytes after it. -/
  | instr (i : Instr) (rest : List Byte)
  /-- Fewer than the two bytes of a word were given (R90). -/
  | truncated
deriving DecidableEq, Repr

/-- The decoder on bytes, lowest address first (R90, spec/20_memory.md R68). -/
def decodeBytes : List Byte → Decoded
  | hi :: lo :: rest => .instr (decodeWord (wordOfBytes hi lo)) rest
  | _ => .truncated

/-- The instruction word whose bits are w numbered as spec/opcode_table.json numbers them, bits from nbits up being 0. -/
def tableWord (nbits w : Nat) : Word := BitVec.ofNat 16 (w % 2 ^ nbits)

/-- The two bytes of an instruction word as memory holds them, high byte first (spec/20_memory.md R68). -/
def bytesOfWord (w : Word) : List Byte := [w.extractLsb' 8 8, w.extractLsb' 0 8]

/-- The instruction the decoder reads from a word numbered as the opcode table numbers it. -/
def decodeTableWord (nbits w : Nat) : Option Instr :=
  match decodeBytes (bytesOfWord (tableWord nbits w)) with
  | .instr i _ => some i
  | .truncated => none

/-- A word of format NNN: CAT ++ NNN (R92). -/
def wordNNN (c : Nibble) (nnn : Addr) : Word := c ++ nnn

/-- A word of format XNN: CAT ++ X ++ NN (R92). -/
def wordXNN (c : Nibble) (x : Reg) (nn : Byte) : Word := c ++ (BitVec.ofFin x : Nibble) ++ nn

/-- A word of format XY or XYN: CAT ++ X ++ Y ++ N (R92). -/
def wordXYN (c : Nibble) (x y : Reg) (n : Nibble) : Word :=
  c ++ (BitVec.ofFin x : Nibble) ++ (BitVec.ofFin y : Nibble) ++ n

/-- The word of an instruction, from the patterns of R95; SE_REG and SNE_REG get the canonical N = 0 (R101). -/
def encode : Instr → Word
  | .cls => 0x00E0
  | .ret => 0x00EE
  | .nop0 nnn => wordNNN 0x0 nnn
  | .jp nnn => wordNNN 0x1 nnn
  | .call nnn => wordNNN 0x2 nnn
  | .seImm x nn => wordXNN 0x3 x nn
  | .sneImm x nn => wordXNN 0x4 x nn
  | .seReg x y => wordXYN 0x5 x y 0x0
  | .ldImm x nn => wordXNN 0x6 x nn
  | .addImm x nn => wordXNN 0x7 x nn
  | .ldReg x y => wordXYN 0x8 x y 0x0
  | .orReg x y => wordXYN 0x8 x y 0x1
  | .andReg x y => wordXYN 0x8 x y 0x2
  | .xorReg x y => wordXYN 0x8 x y 0x3
  | .addReg x y => wordXYN 0x8 x y 0x4
  | .sub x y => wordXYN 0x8 x y 0x5
  | .shr x y => wordXYN 0x8 x y 0x6
  | .subn x y => wordXYN 0x8 x y 0x7
  | .shl x y => wordXYN 0x8 x y 0xE
  | .nop8 x y n => wordXYN 0x8 x y n
  | .sneReg x y => wordXYN 0x9 x y 0x0
  | .ldI nnn => wordNNN 0xA nnn
  | .jpV0 nnn => wordNNN 0xB nnn
  | .rnd x nn => wordXNN 0xC x nn
  | .drw x y n => wordXYN 0xD x y n
  | .skp x => wordXNN 0xE x 0x9E
  | .sknp x => wordXNN 0xE x 0xA1
  | .illE x nn => wordXNN 0xE x nn
  | .ldVxDt x => wordXNN 0xF x 0x07
  | .ldVxK x => wordXNN 0xF x 0x0A
  | .ldDtVx x => wordXNN 0xF x 0x15
  | .ldStVx x => wordXNN 0xF x 0x18
  | .addI x => wordXNN 0xF x 0x1E
  | .ldF x => wordXNN 0xF x 0x29
  | .ldB x => wordXNN 0xF x 0x33
  | .stRegs x => wordXNN 0xF x 0x55
  | .ldRegs x => wordXNN 0xF x 0x65
  | .illF x nn => wordXNN 0xF x nn

/-- A row of the opcode map: its priority, and the mask and match that select it (R95). -/
structure OpcodeRow where
  priority : Nat
  mask : Word
  value : Word
deriving DecidableEq, Repr

/-- Rows 1 to 10 of R95. -/
def rows1 : List OpcodeRow :=
  [⟨1, 0xFFFF, 0x00E0⟩, ⟨2, 0xFFFF, 0x00EE⟩, ⟨3, 0xF000, 0x0000⟩, ⟨4, 0xF000, 0x1000⟩, ⟨5, 0xF000, 0x2000⟩,
   ⟨6, 0xF000, 0x3000⟩, ⟨7, 0xF000, 0x4000⟩, ⟨8, 0xF000, 0x5000⟩, ⟨9, 0xF000, 0x6000⟩, ⟨10, 0xF000, 0x7000⟩]

/-- Rows 11 to 20 of R95. -/
def rows11 : List OpcodeRow :=
  [⟨11, 0xF00F, 0x8000⟩, ⟨12, 0xF00F, 0x8001⟩, ⟨13, 0xF00F, 0x8002⟩, ⟨14, 0xF00F, 0x8003⟩, ⟨15, 0xF00F, 0x8004⟩,
   ⟨16, 0xF00F, 0x8005⟩, ⟨17, 0xF00F, 0x8006⟩, ⟨18, 0xF00F, 0x8007⟩, ⟨19, 0xF00F, 0x800E⟩, ⟨20, 0xF000, 0x8000⟩]

/-- Rows 21 to 28 of R95. -/
def rows21 : List OpcodeRow :=
  [⟨21, 0xF000, 0x9000⟩, ⟨22, 0xF000, 0xA000⟩, ⟨23, 0xF000, 0xB000⟩, ⟨24, 0xF000, 0xC000⟩, ⟨25, 0xF000, 0xD000⟩,
   ⟨26, 0xF0FF, 0xE09E⟩, ⟨27, 0xF0FF, 0xE0A1⟩, ⟨28, 0xF000, 0xE000⟩]

/-- Rows 29 to 38 of R95. -/
def rows29 : List OpcodeRow :=
  [⟨29, 0xF0FF, 0xF007⟩, ⟨30, 0xF0FF, 0xF00A⟩, ⟨31, 0xF0FF, 0xF015⟩, ⟨32, 0xF0FF, 0xF018⟩, ⟨33, 0xF0FF, 0xF01E⟩,
   ⟨34, 0xF0FF, 0xF029⟩, ⟨35, 0xF0FF, 0xF033⟩, ⟨36, 0xF0FF, 0xF055⟩, ⟨37, 0xF0FF, 0xF065⟩, ⟨38, 0xF000, 0xF000⟩]

/-- The opcode map of R95, transcribed. The decoder does not use it; claims compare the decoder with it. -/
def opcodeMap : List OpcodeRow := rows1 ++ rows11 ++ rows21 ++ rows29

/-- The number of the first row that a word selects (R95, R98). -/
def selectedRow (w : Word) : Option Nat :=
  (opcodeMap.find? fun r => w &&& r.mask = r.value).map OpcodeRow.priority

/-- The number of an instruction's row in R95. -/
def Instr.row : Instr → Nat
  | .cls => 1
  | .ret => 2
  | .nop0 _ => 3
  | .jp _ => 4
  | .call _ => 5
  | .seImm _ _ => 6
  | .sneImm _ _ => 7
  | .seReg _ _ => 8
  | .ldImm _ _ => 9
  | .addImm _ _ => 10
  | .ldReg _ _ => 11
  | .orReg _ _ => 12
  | .andReg _ _ => 13
  | .xorReg _ _ => 14
  | .addReg _ _ => 15
  | .sub _ _ => 16
  | .shr _ _ => 17
  | .subn _ _ => 18
  | .shl _ _ => 19
  | .nop8 _ _ _ => 20
  | .sneReg _ _ => 21
  | .ldI _ => 22
  | .jpV0 _ => 23
  | .rnd _ _ => 24
  | .drw _ _ _ => 25
  | .skp _ => 26
  | .sknp _ => 27
  | .illE _ _ => 28
  | .ldVxDt _ => 29
  | .ldVxK _ => 30
  | .ldDtVx _ => 31
  | .ldStVx _ => 32
  | .addI _ => 33
  | .ldF _ => 34
  | .ldB _ => 35
  | .stRegs _ => 36
  | .ldRegs _ => 37
  | .illF _ _ => 38

end Sys2Proof
end

