-- ==== Sys2Proof/Config.lean ====
section
/-! DEFINITION. What an implementation fixes (spec/00_scope.md R6, R7) and the free values: constants without a body, of
which no proof can know anything. -/

namespace Sys2Proof.Config

/-- MEM_SIZE (R6). -/
abbrev memSize : Nat := 4096

/-- FONT_BASE (R6). -/
abbrev fontBase : Nat := 0x050

/-- FONT_LEN (R6). -/
abbrev fontLen : Nat := 80

/-- FONT_GLYPH_LEN (R6). -/
abbrev glyphLen : Nat := 5

/-- PROG_BASE (R6). -/
abbrev progBase : Nat := 0x200

/-- PROG_MAX (R6): the longest program image. -/
abbrev progMax : Nat := 3584

/-- WIDTH (R6): display columns. -/
abbrev width : Nat := 64

/-- HEIGHT (R6): display rows. -/
abbrev height : Nat := 32

/-- NPIX (R6): pixels of the display buffer. -/
abbrev npix : Nat := 2048

/-- WHITE (R6), the colour of an ON pixel (spec/43_display.md R195). -/
abbrev white : BitVec 24 := 0xFFFFFF

/-- BLACK (R6), the colour of an OFF pixel (spec/43_display.md R195). -/
abbrev black : BitVec 24 := 0x000000

/-- PC_RESET (R7, spec/10_state.md R49). -/
def pcReset : Word := 0x0200

/-- STACK_DEPTH (R7, spec/10_state.md R32), `none` for the unbounded stack of the document.
DESIGN CHOICE (log entry 4, safe): the spec's default value, 16 entries. -/
def stackDepth : Option Nat := some 16

/-- The two values of the parameter SUBN_DEST (spec/41_alu.md R150). -/
inductive SubnDest where
  /-- 8XY7 writes VY, as the document says. -/
  | y
  /-- 8XY7 writes VX, the conventional form. -/
  | x
deriving DecidableEq, Repr

/-- SUBN_DEST (R7, spec/41_alu.md R150).
DESIGN CHOICE (log entry 5, unsafe): the spec's default value, Y. -/
def subnDest : SubnDest := .y

/-- IPF (R7, spec/70_reset_and_hazards.md R259): instruction steps per frame in the reference schedule of ticks. The step
does not depend on it; claims that need the schedule name it (log entry 13). -/
def ipf : Nat := 12

/-- Glyphs 0 to 3 of the table of R66. -/
def font0 : List Byte :=
  [0xF0, 0x90, 0x90, 0x90, 0xF0,
   0x20, 0x60, 0x20, 0x20, 0x70,
   0xF0, 0x10, 0xF0, 0x80, 0xF0,
   0xF0, 0x10, 0xF0, 0x10, 0xF0]

/-- Glyphs 4 to 7 of the table of R66. -/
def font4 : List Byte :=
  [0x90, 0x90, 0xF0, 0x10, 0x10,
   0xF0, 0x80, 0xF0, 0x10, 0xF0,
   0xF0, 0x80, 0xF0, 0x90, 0xF0,
   0xF0, 0x10, 0x20, 0x40, 0x40]

/-- Glyphs 8 to B of the table of R66. -/
def font8 : List Byte :=
  [0xF0, 0x90, 0xF0, 0x90, 0xF0,
   0xF0, 0x90, 0xF0, 0x10, 0xF0,
   0xF0, 0x90, 0xF0, 0x90, 0x90,
   0xE0, 0x90, 0xE0, 0x90, 0xE0]

/-- Glyphs C to F of the table of R66. -/
def fontC : List Byte :=
  [0xF0, 0x80, 0x80, 0x80, 0xF0,
   0xE0, 0x90, 0x90, 0x90, 0xE0,
   0xF0, 0x80, 0xF0, 0x80, 0xF0,
   0xF0, 0x80, 0xF0, 0x80, 0x80]

/-- FONT[0..79] (R7, spec/20_memory.md R64, R65, R66).
PRESUMED (log entry 6, unsafe): the conventional table, which the spec itself marks as general knowledge. -/
def font : List Byte := font0 ++ font4 ++ font8 ++ fontC

/-- Free value: the key levels that the step numbered n samples (spec/10_state.md R44). Log entries 1 and 2. -/
opaque keysAt : Nat → Word

/-- Free value: the random byte that the step numbered n may consume (spec/10_state.md R45). Log entries 1 and 2. -/
opaque rndAt : Nat → Byte

/-- Free value: how many ticks fall on the boundary after the step numbered n (spec/70_reset_and_hazards.md R258, R260).
Log entries 1 and 3. -/
opaque ticksAt : Nat → Nat

/-- Free value: fault_ir after a fault of the fetch in the step numbered n, where there is no instruction word
(spec/60_exceptions.md R222). Log entry 8. -/
opaque fetchFaultIr : Nat → Word

end Sys2Proof.Config
end

