-- ==== Sys2Proof/Machine/State.lean ====
section
/-! DEFINITION. The machine state (spec/10_state.md), the reasons a step can stop (spec/60_exceptions.md R221) and the state
after reset (spec/10_state.md R49). -/

namespace Sys2Proof.Machine

/-- Memory: a list of cells in canonical form, sorted by address, holding no entry equal to what an unlisted address reads
as (spec/20_memory.md R60; `Memory.wf`). -/
abbrev Memory := List Host.Cell

/-- The inputs of one step, which the spec keeps outside the core (spec/00_scope.md R9). -/
structure HostInput where
  /-- The key levels: bit k is 1 iff key k is held (spec/10_state.md R44). -/
  keys : Word
  /-- The random byte the step may consume (spec/10_state.md R45). -/
  rnd : Byte
  /-- The ticks that fall on the boundary after the step (spec/70_reset_and_hazards.md R258, R260). -/
  ticks : Nat
deriving DecidableEq, Repr

/-- The halt and fault registers, which only the host sees (spec/10_state.md R46). -/
structure HaltRegs where
  /-- 1: the core takes no further steps. -/
  halted : Bool
  /-- The cause, 0 for no fault. -/
  faultCode : BitVec 3
  /-- The word that faulted. -/
  faultIr : Word
  /-- The address that word was fetched from. -/
  faultPc : Word
deriving DecidableEq, Repr

/-- The whole machine state, with the inputs that drive it. -/
structure State where
  /-- V0 to VF (R20). -/
  v : Vector Byte 16
  /-- The index register I (R28). -/
  index : Word
  /-- The program counter (R24). -/
  pc : Word
  /-- The live return addresses, oldest first: entry k is stack[k] (R32). -/
  stack : List Word
  /-- The delay timer DT (R40). -/
  dt : Byte
  /-- The sound timer ST (R41). -/
  st : Byte
  /-- The display buffer: bit k is fb[k], 1 for ON (R37). -/
  fb : BitVec 2048
  /-- The memory (spec/20_memory.md R60). -/
  mem : Memory
  /-- halted, fault_code, fault_ir, fault_pc (R46). -/
  halt : HaltRegs
  /-- The model's own: the inputs of the coming steps that are already settled, the next step's first (log entry 1). -/
  inputs : List HostInput
  /-- The model's own: the number of steps taken, at which a step with no settled inputs draws free values (log entry 1). -/
  drawn : Nat
  /-- The model's own: the number of steps taken since reset was released, from which the reference schedule of ticks counts
  (spec/70_reset_and_hazards.md R259; log entry 13). -/
  sinceReset : Nat
deriving DecidableEq, Repr

/-- Why the machine stops. In the first seven, ir and pc are what the fault leaves in fault_ir and fault_pc
(spec/60_exceptions.md R222); a stopped step has no successor state (R224; log entry 7, safe). -/
inductive Fault where
  /-- Raised by RET on an empty stack (R121). Safe: the spec ends the run here. -/
  | stackUnderflow (ir pc : Word)
  /-- Raised by nothing: all categories are assigned (R232). Kept so that the causes match the spec's table. -/
  | unknownCategory (ir pc : Word)
  /-- Raised by ILL_E (R206). Safe: the spec ends the run here. -/
  | unknownESub (ir pc : Word)
  /-- Raised by ILL_F (R207). Safe: the spec ends the run here. -/
  | unknownFSub (ir pc : Word)
  /-- Raised by the fetch, DRW, LD_B, ST_REGS and LD_REGS on an address above 4095 (spec/20_memory.md R72).
  Safe: the spec ends the run here. -/
  | outOfBounds (ir pc : Word)
  /-- Raised by CALL on a full stack (R123). Safe: an unbounded stack would go on (log entry 4). -/
  | stackOverflow (ir pc : Word)
  /-- Raised by SKP and SKNP when VX is above 15 (R200, R201). Safe: the spec ends the run here. -/
  | badKeyIndex (ir pc : Word)
  /-- Raised by step alone, on a core that is already halted: it takes no steps (spec/70_reset_and_hazards.md R257). It
  carries the fault registers, which stay as they are. Safe: stuck, as the spec says (log entry 16). -/
  | alreadyHalted (regs : HaltRegs)
deriving DecidableEq, Repr

/-- Why a step has no meaning. No arm of exec answers one. -/
inductive Refusal where
  /-- Raised by exec alone, for an instruction without a meaning. Safe: the run just ends. -/
  | notModelled (mnemonic : String)
deriving DecidableEq, Repr

/-- The state at the release of reset with the empty program image (R49; spec/70_reset_and_hazards.md R251, R252). The
spec leaves fault_ir and fault_pc unspecified: DESIGN CHOICE 0 (log entry 9). The last three fields are the model's
own (log entries 1 and 13). -/
def State.reset : State where
  v := Vector.replicate 16 0
  index := 0
  pc := Config.pcReset
  stack := []
  dt := 0
  st := 0
  fb := 0
  mem := []
  halt := { halted := false, faultCode := 0, faultIr := 0, faultPc := 0 }
  inputs := []
  drawn := 0
  sinceReset := 0

end Sys2Proof.Machine
end

