-- ==== Sys2Proof/Machine/Ops.lean ====
section
/-! DEFINITION. The named operations: one place each for reading and writing memory, the V registers, pc, the call stack,
the timers and the inputs; raising a fatal fault; loading a program. Every meaning goes through them. -/

namespace Sys2Proof.Machine

/-- The outcome of a step or of an instruction on this machine. -/
abbrev Result := Host.Outcome State Fault Refusal

/-! ### Memory -/

/-- What an unlisted address reads as: the memory at the release of reset with the empty image, zero but for the font
(spec/20_memory.md R63; spec/70_reset_and_hazards.md R252). -/
def Memory.initial (a : Nat) : Byte :=
  if Config.fontBase ≤ a ∧ a < Config.fontBase + Config.fontLen then Config.font.getD (a - Config.fontBase) 0 else 0

/-- The byte at an address. -/
def Memory.read : Memory → Nat → Byte
  | [], a => Memory.initial a
  | (k, c) :: rest, a => if k = a then c else Memory.read rest a

/-- The memory without an entry for an address. -/
def Memory.erase (m : Memory) (a : Nat) : Memory := m.filter fun cell => cell.1 ≠ a

/-- The memory with an entry put at its place in the order of addresses. -/
def Memory.insert : Memory → Nat → Byte → Memory
  | [], a, b => [(a, b)]
  | (k, c) :: rest, a, b => if a < k then (a, b) :: (k, c) :: rest else (k, c) :: Memory.insert rest a b

/-- The memory after a byte is stored, in canonical form: a byte equal to the unlisted reading leaves no entry. -/
def Memory.write (m : Memory) (a : Nat) (b : Byte) : Memory :=
  if b = Memory.initial a then m.erase a else (m.erase a).insert a b

/-- Canonical from an address on: rising addresses below 4096, each entry different from the unlisted reading. -/
def Memory.wfFrom : Nat → Memory → Bool
  | _, [] => true
  | lo, (k, c) :: rest =>
    decide (lo ≤ k) && decide (k < Config.memSize) && decide (c ≠ Memory.initial k) && Memory.wfFrom (k + 1) rest

/-- The canonical form of memory. -/
def Memory.wf (m : Memory) : Bool := Memory.wfFrom 0 m

/-! ### Registers -/

/-- `x[r]` (spec/10_state.md R20, R21). -/
def State.readV (s : State) (r : Reg) : Byte := s.v[r.val]

/-- `x[r] <- b` (spec/10_state.md R20, R21). -/
def State.setV (s : State) (r : Reg) (b : Byte) : State := { s with v := s.v.set r.val b }

/-- `pc <- t` (spec/10_state.md R24). -/
def State.setPc (s : State) (t : Word) : State := { s with pc := t }

/-- `I <- a` (spec/10_state.md R28). -/
def State.setIndex (s : State) (a : Word) : State := { s with index := a }

/-- `DT <- b` (spec/10_state.md R40). -/
def State.setDt (s : State) (b : Byte) : State := { s with dt := b }

/-- `ST <- b` (spec/10_state.md R41). -/
def State.setSt (s : State) (b : Byte) : State := { s with st := b }

/-- The display buffer written whole (spec/10_state.md R37). -/
def State.setFb (s : State) (d : BitVec 2048) : State := { s with fb := d }

/-- The memory written whole. -/
def State.setMem (s : State) (m : Memory) : State := { s with mem := m }

/-- The live return addresses written whole. -/
def State.setStack (s : State) (l : List Word) : State := { s with stack := l }

/-- The pc after the fetch increment (spec/00_scope.md R13; spec/70_reset_and_hazards.md R254). -/
def State.advance (s : State) : State := s.setPc (s.pc + 2)

/-- `snd_on` (spec/10_state.md R41). -/
def State.sndOn (s : State) : Bool := s.st ≠ 0

/-- `fb[k]` (spec/10_state.md R37). -/
def State.pixel (s : State) (k : Nat) : Bool := s.fb.getLsbD k

/-! ### Bounds-checked access -/

/-- `MemRead(a, 1)`: none is Fatal(OutOfBounds) (spec/20_memory.md R69, R72). Addresses are naturals, so nothing wraps. -/
def State.readByte (s : State) (a : Nat) : Option Byte := if a < Config.memSize then some (s.mem.read a) else none

/-- `MemWrite(a, 1, b)`: none is Fatal(OutOfBounds) (spec/20_memory.md R70, R72). -/
def State.writeByte (s : State) (a : Nat) (b : Byte) : Option State :=
  if a < Config.memSize then some (s.setMem (s.mem.write a b)) else none

/-- The bytes at n ascending addresses from a on (spec/20_memory.md R69, R73). -/
def State.readBytes (s : State) : Nat → Nat → Option (List Byte)
  | _, 0 => some []
  | a, n + 1 =>
    match s.readByte a with
    | none => none
    | some b =>
      match s.readBytes (a + 1) n with
      | none => none
      | some bs => some (b :: bs)

/-- The bytes stored at ascending addresses from a on (spec/20_memory.md R70, R73). -/
def State.writeBytes : State → Nat → List Byte → Option State
  | s, _, [] => some s
  | s, a, b :: bs =>
    match s.writeByte a b with
    | none => none
    | some t => t.writeBytes (a + 1) bs

/-- `IR <- MemRead(pc, 2)`, the byte at pc high: none is Fatal(OutOfBounds) (spec/20_memory.md R68, R71;
spec/70_reset_and_hazards.md R255). -/
def State.fetch (s : State) : Option Word :=
  match s.readBytes s.pc.toNat 2 with
  | some [hi, lo] => some (wordOfBytes hi lo)
  | _ => none

/-! ### The call stack -/

/-- `sp`, the number of live return addresses (spec/10_state.md R32). -/
def State.sp (s : State) : Nat := s.stack.length

/-- The stack holds STACK_DEPTH entries; never, for an unbounded stack (spec/10_state.md R33). -/
def stackFull (depth : Option Nat) (sp : Nat) : Bool :=
  match depth with
  | none => false
  | some d => d ≤ sp

/-- `push(v)` with a given STACK_DEPTH: none is Fatal(StackOverflow) (spec/10_state.md R33). -/
def State.push (s : State) (depth : Option Nat) (v : Word) : Option State :=
  if stackFull depth s.sp then none else some (s.setStack (s.stack ++ [v]))

/-- `pop()`: the most recent entry and the state without it; none is Fatal(StackUnderflow) (spec/10_state.md R34). -/
def State.pop (s : State) : Option (Word × State) :=
  match s.stack.getLast? with
  | none => none
  | some v => some (v, s.setStack s.stack.dropLast)

/-! ### Taking a fatal fault -/

/-- `fault_code` of each cause (spec/60_exceptions.md R221). A halted core keeps the code it has. -/
def Fault.code : Fault → BitVec 3
  | .stackUnderflow _ _ => 1
  | .unknownCategory _ _ => 2
  | .unknownESub _ _ => 3
  | .unknownFSub _ _ => 4
  | .outOfBounds _ _ => 5
  | .stackOverflow _ _ => 6
  | .badKeyIndex _ _ => 7
  | .alreadyHalted regs => regs.faultCode

/-- The four registers as fault entry leaves them (spec/60_exceptions.md R222). -/
def Fault.haltRegs (f : Fault) : HaltRegs :=
  match f with
  | .stackUnderflow ir pc | .unknownCategory ir pc | .unknownESub ir pc | .unknownFSub ir pc
  | .outOfBounds ir pc | .stackOverflow ir pc | .badKeyIndex ir pc => ⟨true, f.code, ir, pc⟩
  | .alreadyHalted regs => regs

/-- `raise Fatal(c)` in an instruction: the step stops with the cause, the word executed and the address it was fetched
from, which is pc less the fetch increment (spec/60_exceptions.md R220, R222). No other state is defined (R224), and
control goes nowhere (R225). -/
def raiseFatal (cause : Word → Word → Fault) (i : Instr) (s : State) : Result := .fault (cause (encode i) (s.pc - 2))

/-- An access that succeeded, or Fatal(OutOfBounds) (spec/20_memory.md R72). -/
def orOutOfBounds (i : Instr) (s : State) : Option State → Result
  | none => raiseFatal .outOfBounds i s
  | some t => .next t

/-- What the host reads of halted, fault_code, fault_ir and fault_pc after a step (spec/70_reset_and_hazards.md R270): the
registers of the next state, or those that fault entry leaves. A refusal leaves them as they were before the step. -/
def haltRegsAfter (before : State) : Result → HaltRegs
  | .next t => t.halt
  | .fault f => f.haltRegs
  | .refused _ => before.halt

/-! ### Inputs, timers and the boundary between steps -/

/-- The inputs of a coming step, the next one being number 0: the settled ones if there are any for it, else free values
(spec/00_scope.md R9; log entry 1). -/
def State.inputAt (s : State) (k : Nat) : HostInput :=
  match s.inputs[k]? with
  | some i => i
  | none => ⟨Config.keysAt (s.drawn + k), Config.rndAt (s.drawn + k), Config.ticksAt (s.drawn + k)⟩

/-- The inputs of the next step. -/
def State.input (s : State) : HostInput := s.inputAt 0

/-- `keys`, as the next step sees it (spec/10_state.md R44). -/
def State.keys (s : State) : Word := s.input.keys

/-- `rnd`, as the next step sees it (spec/10_state.md R45). -/
def State.rnd (s : State) : Byte := s.input.rnd

/-- One timer under one tick: down by one, zero stays zero (spec/10_state.md R42; spec/70_reset_and_hazards.md R258). -/
def decTimer (b : Byte) : Byte := if b = 0 then 0 else b - 1

/-- The `tick` event (spec/70_reset_and_hazards.md R258). -/
def State.tick (s : State) : State := { s with dt := decTimer s.dt, st := decTimer s.st }

/-- One timer under n ticks, in one step: `decTimer` n times over (Laws/Ops.lean). -/
def timerAfter (b : Byte) (n : Nat) : Byte := if b = 0 then 0 else BitVec.ofNat 8 (b.toNat - n)

/-- The state after n ticks: `State.tick` n times over (Laws/Ops.lean). -/
def State.ticks (s : State) (n : Nat) : State := { s with dt := timerAfter s.dt n, st := timerAfter s.st n }

/-- The inputs of the step that just ended are spent, and the step is counted. -/
def State.nextInputs (s : State) : State :=
  { s with inputs := s.inputs.tail, drawn := s.drawn + 1, sinceReset := s.sinceReset + 1 }

/-- The boundary after a step: the ticks that fall there, then the next step's inputs (spec/70_reset_and_hazards.md R258,
R260; log entry 3). -/
def State.boundary (s : State) : State := (s.ticks s.input.ticks).nextInputs

/-! ### How a step ends -/

/-- A step's outcome once its instruction is done: the boundary follows a next state. -/
def endStep : Result → Result
  | .next t => .next t.boundary
  | .fault f => .fault f
  | .refused r => .refused r

/-- The fault of a fetch above 4095: fault_pc is pc; there is no word, so fault_ir is a free value
(spec/70_reset_and_hazards.md R255; spec/60_exceptions.md R222; log entry 8). -/
def fetchFault (s : State) : Fault := .outOfBounds (Config.fetchFaultIr s.drawn) s.pc

/-! ### Loading a program -/

/-- Bytes seeded at ascending addresses. -/
def Memory.seed : Memory → Nat → List Byte → Memory
  | m, _, [] => m
  | m, a, b :: bs => Memory.seed (m.write a b) (a + 1) bs

/-- Reset with a program image: memory zero, then the font, then the image at 0x200 (spec/70_reset_and_hazards.md R250,
R252). An image above 3584 bytes is refused by the loader (log entry 14). -/
def State.load (image : List Byte) : Option State :=
  if image.length ≤ Config.progMax then some (State.reset.setMem (Memory.seed [] Config.progBase image)) else none

/-- Reset during a run, with a program image: the state of `State.load`, from any state, a halted one included
(spec/70_reset_and_hazards.md R250; spec/60_exceptions.md R223). It is the host's act between steps and no step (log
entry 19). The inputs, which the core does not hold, go on; the count of steps since reset starts again at 0 (R259). -/
def State.restart (s : State) (image : List Byte) : Option State :=
  (State.load image).map fun t => { t with inputs := s.inputs, drawn := s.drawn }

/-- An instruction word stored at pc, high byte first (spec/20_memory.md R68). Where pc is above 0x0FFE no word can be
fetched, and the state is unchanged. -/
def State.placeWord (s : State) (w : Word) : State := (s.writeBytes s.pc.toNat (bytesOfWord w)).getD s

end Sys2Proof.Machine
end

