-- ==== Sys2Proof/Machine/Flags.lean ====
section
/-! DEFINITION. Every flag computation of the machine. VF is the only flag, and an instruction that writes it as a flag
writes 0 or 1 (spec/10_state.md R22, R23). Sums and comparisons are of unbounded naturals (spec/41_alu.md R154). -/

namespace Sys2Proof.Machine

/-- A flag as VF holds it: 0x00 or 0x01 (spec/10_state.md R22). -/
def flagByte (c : Bool) : Byte := if c then 1 else 0

/-- The carry of an addition: the true sum is at least 256 (spec/41_alu.md R147). -/
def carryOut (a b : Byte) : Bool := 256 ≤ a.toNat + b.toNat

/-- No borrow in `a - b`: the minuend is at least the subtrahend (spec/41_alu.md R148, R150). -/
def noBorrow (a b : Byte) : Bool := b.toNat ≤ a.toNat

/-- The bit a right shift by one drops (spec/41_alu.md R149). -/
def bitShiftedRight (a : Byte) : Bool := a.getLsbD 0

/-- The bit a left shift by one drops (spec/41_alu.md R151). -/
def bitShiftedLeft (a : Byte) : Bool := a.getLsbD 7

/-- The true sum of I and VX leaves the 12-bit range (spec/42_index_memory.md R171). -/
def leavesIndexRange (i : Word) (b : Byte) : Bool := 0x1000 ≤ i.toNat + b.toNat

/-- A result and its flag: the result first, VF last, so that VF as the destination keeps the flag
(spec/41_alu.md R142). -/
def State.setResultAndFlag (s : State) (dest : Reg) (result : Byte) (flag : Bool) : State :=
  (s.setV dest result).setV VF (flagByte flag)

end Sys2Proof.Machine
end

