-- ==== Sys2Proof/Machine/Operands.lean ====
section
/-! DEFINITION. Every operand form: the zero-extended immediate NNN, the address I + k, a block of registers, the digits of
a byte, the skip (spec/30_encoding.md R93; spec/42_index_memory.md R176). VX, VY and V0 are `State.readV`. -/

namespace Sys2Proof.Machine

/-- `zext_16(NNN)` (spec/30_encoding.md R93). -/
def addrOperand (nnn : Addr) : Word := nnn.setWidth 16

/-- `zext_16(b)` (spec/40_control_flow.md R128). -/
def byteOperand (b : Byte) : Word := b.setWidth 16

/-- The base of every data access: I as an unbounded number, so that I + k never wraps (spec/42_index_memory.md R176). -/
def State.base (s : State) : Nat := s.index.toNat

/-- V0 to VX, in ascending order (spec/42_index_memory.md R174). -/
def State.registersUpTo (s : State) (x : Reg) : List Byte := s.v.toList.take (x.val + 1)

/-- The V registers with bytes put into ascending ones from number k on (spec/42_index_memory.md R175). -/
def setBlock : Vector Byte 16 → Nat → List Byte → Vector Byte 16
  | v, _, [] => v
  | v, k, b :: bs => setBlock (v.set (Fin.ofNat 16 k).val b) (k + 1) bs

/-- Bytes written to ascending registers from number k on (spec/42_index_memory.md R175). -/
def State.setRegistersFrom (s : State) (k : Nat) (bs : List Byte) : State := { s with v := setBlock s.v k bs }

/-- The hundreds, tens and ones of a byte, each as a number (spec/42_index_memory.md R173). -/
def decimalDigits (b : Byte) : List Byte :=
  [BitVec.ofNat 8 (b.toNat / 100), BitVec.ofNat 8 (b.toNat / 10 % 10), BitVec.ofNat 8 (b.toNat % 10)]

/-- The address of the glyph for a byte, the whole byte used (spec/42_index_memory.md R172). -/
def glyphAddress (b : Byte) : Word := BitVec.ofNat 16 (Config.fontBase + Config.glyphLen * b.toNat)

/-- The skip: two more bytes if the condition holds, whatever they are (spec/40_control_flow.md R124). -/
def State.skipIf (s : State) (c : Bool) : State := s.setPc (if c then s.pc + 2 else s.pc)

/-- `keys[k]` for a key number (spec/10_state.md R44). -/
def keyHeld (keys : Word) (k : Nat) : Bool := keys.getLsbD k

/-- The key numbers. -/
def keyNumbers : List Nat := [0, 1, 2, 3, 4, 5, 6, 7, 8, 9, 10, 11, 12, 13, 14, 15]

/-- The least key that is held, if any is (spec/44_keypad_timers.md R202). -/
def lowestKeyHeld (keys : Word) : Option Nat := keyNumbers.find? (keyHeld keys)

end Sys2Proof.Machine
end

