-- ==== Sys2Proof/Machine/Alu.lean ====
section
/-! DEFINITION. The meanings of spec/41_alu.md. Register results are modulo 256, which is the arithmetic of Byte (R154). -/

namespace Sys2Proof.Machine

/-- R140: `x[X] <- NN`. -/
def execLdImm (x : Reg) (nn : Byte) (s : State) : Result := .next (s.setV x nn)

/-- R141: `x[X] <- (x[X] + NN) mod 256`; VF is not written as a flag. -/
def execAddImm (x : Reg) (nn : Byte) (s : State) : Result := .next (s.setV x (s.readV x + nn))

/-- R143: `x[X] <- x[Y]`. -/
def execLdReg (x y : Reg) (s : State) : Result := .next (s.setV x (s.readV y))

/-- R144: `x[X] <- x[X] | x[Y]`. -/
def execOrReg (x y : Reg) (s : State) : Result := .next (s.setV x (s.readV x ||| s.readV y))

/-- R145: `x[X] <- x[X] & x[Y]`. -/
def execAndReg (x y : Reg) (s : State) : Result := .next (s.setV x (s.readV x &&& s.readV y))

/-- R146: `x[X] <- x[X] ^ x[Y]`. -/
def execXorReg (x y : Reg) (s : State) : Result := .next (s.setV x (s.readV x ^^^ s.readV y))

/-- R147: the sum to VX, the carry to VF. -/
def execAddReg (x y : Reg) (s : State) : Result :=
  .next (s.setResultAndFlag x (s.readV x + s.readV y) (carryOut (s.readV x) (s.readV y)))

/-- R148: `x[X] - x[Y]` to VX, no borrow to VF. -/
def execSub (x y : Reg) (s : State) : Result :=
  .next (s.setResultAndFlag x (s.readV x - s.readV y) (noBorrow (s.readV x) (s.readV y)))

/-- R149: VX shifted right by one in place, the dropped bit to VF; VY is not used. -/
def execShr (x _y : Reg) (s : State) : Result :=
  .next (s.setResultAndFlag x (s.readV x >>> 1) (bitShiftedRight (s.readV x)))

/-- R150 with a given SUBN_DEST: `x[Y] - x[X]` to VY or VX, no borrow to VF. -/
def subnInto (dest : Config.SubnDest) (x y : Reg) (s : State) : State :=
  s.setResultAndFlag (match dest with | .y => y | .x => x) (s.readV y - s.readV x) (noBorrow (s.readV y) (s.readV x))

/-- R150 with the machine's SUBN_DEST (log entry 5). -/
def execSubn (x y : Reg) (s : State) : Result := .next (subnInto Config.subnDest x y s)

/-- R151: VX shifted left by one in place, the dropped bit to VF; VY is not used. -/
def execShl (x _y : Reg) (s : State) : Result :=
  .next (s.setResultAndFlag x (s.readV x <<< 1) (bitShiftedLeft (s.readV x)))

/-- R152: no operation. -/
def execNop8 (_x _y : Reg) (_n : Nibble) (s : State) : Result := .next s

/-- R153: `x[X] <- rnd & NN`, with the random byte of this step. -/
def execRnd (x : Reg) (nn : Byte) (s : State) : Result := .next (s.setV x (s.rnd &&& nn))

end Sys2Proof.Machine
end

