-- ==== Sys2Proof/Machine/ControlFlow.lean ====
section
/-! DEFINITION. The meanings of spec/40_control_flow.md. In every meaning pc already holds the instruction's own address
plus 2 (spec/00_scope.md R13). -/

namespace Sys2Proof.Machine

/-- R120: no operation. -/
def execNop0 (_nnn : Addr) (s : State) : Result := .next s

/-- R121: `pc <- pop()`; Fatal(StackUnderflow) on an empty stack. -/
def execRet (s : State) : Result :=
  match s.pop with
  | none => raiseFatal .stackUnderflow .ret s
  | some (v, t) => .next (t.setPc v)

/-- R122: `pc <- zext_16(NNN)`. -/
def execJp (nnn : Addr) (s : State) : Result := .next (s.setPc (addrOperand nnn))

/-- R123: `push(pc); pc <- zext_16(NNN)`; Fatal(StackOverflow) on a full stack. -/
def execCall (nnn : Addr) (s : State) : Result :=
  match s.push Config.stackDepth s.pc with
  | none => raiseFatal .stackOverflow (.call nnn) s
  | some t => .next (t.setPc (addrOperand nnn))

/-- R124: skip if `x[X] = NN`. -/
def execSeImm (x : Reg) (nn : Byte) (s : State) : Result := .next (s.skipIf (s.readV x = nn))

/-- R125: skip if `x[X] != NN`. -/
def execSneImm (x : Reg) (nn : Byte) (s : State) : Result := .next (s.skipIf (s.readV x ≠ nn))

/-- R126: skip if `x[X] = x[Y]`. -/
def execSeReg (x y : Reg) (s : State) : Result := .next (s.skipIf (s.readV x = s.readV y))

/-- R127: skip if `x[X] != x[Y]`. -/
def execSneReg (x y : Reg) (s : State) : Result := .next (s.skipIf (s.readV x ≠ s.readV y))

/-- R128: `pc <- zext_16(NNN) + zext_16(x[0])`, always V0. -/
def execJpV0 (nnn : Addr) (s : State) : Result := .next (s.setPc (addrOperand nnn + byteOperand (s.readV 0)))

end Sys2Proof.Machine
end

