-- ==== Sys2Proof/Machine/Display.lean ====
section
/-! DEFINITION. The meanings of spec/43_display.md, and the presentation view (R195). -/

namespace Sys2Proof.Machine

/-- The index of a target: column and row combined row-major, then reduced modulo NPIX (R191, R192;
spec/10_state.md R38). -/
def pixelIndex (column row : Nat) : Nat := (row * Config.width + column) % Config.npix

/-- The columns of a sprite row, most significant bit first (R191). -/
def spriteColumns : List Nat := [0, 1, 2, 3, 4, 5, 6, 7]

/-- The targets of one sprite row that starts at a column of a row: the pixels of its set bits (R191). -/
def rowTargets (x0 row : Nat) (b : Byte) : List Nat :=
  (spriteColumns.filter fun j => b.getLsbD (7 - j)).map fun j => pixelIndex (x0 + j) row

/-- The targets of a sprite, row by row from the top (R191). -/
def spriteTargets (x0 : Nat) : Nat → List Byte → List Nat
  | _, [] => []
  | row, b :: bs => rowTargets x0 row b ++ spriteTargets x0 (row + 1) bs

/-- One target pixel: toggled, and a collision if it was ON (R191). -/
def togglePixel (d : BitVec 2048 × Bool) (k : Nat) : BitVec 2048 × Bool :=
  (d.1 ^^^ BitVec.twoPow 2048 k, d.2 || d.1.getLsbD k)

/-- Every target toggled in turn, with whether any was ON (R191). -/
def toggleAll (fb : BitVec 2048) (targets : List Nat) : BitVec 2048 × Bool := targets.foldl togglePixel (fb, false)

/-- The start column, `x[X] mod 64` (R191). -/
def State.startColumn (s : State) (x : Reg) : Nat := (s.readV x).toNat % Config.width

/-- The start row, `x[Y] mod 32` (R191). -/
def State.startRow (s : State) (y : Reg) : Nat := (s.readV y).toNat % Config.height

/-- The sprite drawn at the coordinates that VX and VY held before VF is written; VF gets the collision (R191). -/
def State.draw (s : State) (x y : Reg) (rows : List Byte) : State :=
  let d := toggleAll s.fb (spriteTargets (s.startColumn x) (s.startRow y) rows)
  (s.setFb d.1).setV VF (flagByte d.2)

/-- R190: every pixel OFF. -/
def execCls (s : State) : Result := .next (s.setFb 0)

/-- R191: N sprite rows from I drawn by exclusive OR. All rows are read; Fatal(OutOfBounds) if one is above 4095. -/
def execDrw (x y : Reg) (n : Nibble) (s : State) : Result :=
  orOutOfBounds (.drw x y n) s ((s.readBytes s.base n.toNat).map fun rows => s.draw x y rows)

/-- The colour of a pixel (R195). -/
def pixelColour (on : Bool) : BitVec 24 := if on then Config.white else Config.black

/-- Entry i of the upscaled buffer for a given SCALE: 64 * SCALE columns a row, each pixel a SCALE by SCALE block (R195).
It is a view and no state (spec/10_state.md R50; log entry 15). -/
def State.presentation (s : State) (scale i : Nat) : BitVec 24 :=
  let columns := Config.width * scale
  pixelColour (s.pixel (i / columns / scale * Config.width + i % columns / scale))

end Sys2Proof.Machine
end

