-- ==== Sys2Proof/Machine/IndexMemory.lean ====
section
/-! DEFINITION. The meanings of spec/42_index_memory.md. -/

namespace Sys2Proof.Machine

/-- R170: `I <- zext_16(NNN)`. -/
def execLdI (nnn : Addr) (s : State) : Result := .next (s.setIndex (addrOperand nnn))

/-- R171: I gets the sum modulo 2^16; VF gets 1 if the true sum leaves the 12-bit range and is left alone otherwise. -/
def execAddI (x : Reg) (s : State) : Result :=
  let t := s.setIndex (s.index + byteOperand (s.readV x))
  .next (if leavesIndexRange s.index (s.readV x) then t.setV VF 1 else t)

/-- R172: `I <- 0x050 + 5 * x[X]`, the whole byte used. -/
def execLdF (x : Reg) (s : State) : Result := .next (s.setIndex (glyphAddress (s.readV x)))

/-- R173: the decimal digits of VX stored at I, I + 1, I + 2. -/
def execLdB (x : Reg) (s : State) : Result :=
  orOutOfBounds (.ldB x) s (s.writeBytes s.base (decimalDigits (s.readV x)))

/-- R174: V0 to VX stored at I to I + X; I is unchanged. -/
def execStRegs (x : Reg) (s : State) : Result :=
  orOutOfBounds (.stRegs x) s (s.writeBytes s.base (s.registersUpTo x))

/-- R175: V0 to VX loaded from I to I + X; I is unchanged. -/
def execLdRegs (x : Reg) (s : State) : Result :=
  orOutOfBounds (.ldRegs x) s ((s.readBytes s.base (x.val + 1)).map fun bs => s.setRegistersFrom 0 bs)

end Sys2Proof.Machine
end

