-- ==== Sys2Proof/Machine/KeypadTimers.lean ====
section
/-! DEFINITION. The meanings of spec/44_keypad_timers.md. The key levels are those of this step (R200, R202). -/

namespace Sys2Proof.Machine

/-- R200: skip if the key numbered VX is held; Fatal(BadKeyIndex) if VX is above 15. -/
def execSkp (x : Reg) (s : State) : Result :=
  if 15 < (s.readV x).toNat then raiseFatal .badKeyIndex (.skp x) s
  else .next (s.skipIf (keyHeld s.keys (s.readV x).toNat))

/-- R201: skip if the key numbered VX is not held; Fatal(BadKeyIndex) if VX is above 15. -/
def execSknp (x : Reg) (s : State) : Result :=
  if 15 < (s.readV x).toNat then raiseFatal .badKeyIndex (.sknp x) s
  else .next (s.skipIf (!keyHeld s.keys (s.readV x).toNat))

/-- R202: with no key held, back to this instruction's own address; else the least key held goes to VX. -/
def execLdVxK (x : Reg) (s : State) : Result :=
  .next (match lowestKeyHeld s.keys with
    | none => s.setPc (s.pc - 2)
    | some k => s.setV x (BitVec.ofNat 8 k))

/-- R203: `x[X] <- DT`. -/
def execLdVxDt (x : Reg) (s : State) : Result := .next (s.setV x s.dt)

/-- R204: `DT <- x[X]`. -/
def execLdDtVx (x : Reg) (s : State) : Result := .next (s.setDt (s.readV x))

/-- R205: `ST <- x[X]`. -/
def execLdStVx (x : Reg) (s : State) : Result := .next (s.setSt (s.readV x))

/-- R206: always Fatal(UnknownESub). -/
def execIllE (x : Reg) (nn : Byte) (s : State) : Result := raiseFatal .unknownESub (.illE x nn) s

/-- R207: always Fatal(UnknownFSub). -/
def execIllF (x : Reg) (nn : Byte) (s : State) : Result := raiseFatal .unknownFSub (.illF x nn) s

end Sys2Proof.Machine
end

