-- ==== Sys2Proof/Machine/Step.lean ====
section
/-! DEFINITION. The instruction step: fetch, advance, decode, execute, then the boundary (spec/70_reset_and_hazards.md R254,
R260). -/

namespace Sys2Proof.Machine

/-- The step of a core that is not halted (R254). -/
def runStep (s : State) : Result :=
  match s.fetch with
  | none => .fault (fetchFault s)
  | some w => endStep (exec (decodeWord w) s.advance)

/-- One step: a halted core takes none (R257). -/
def step (s : State) : Host.Outcome State Fault Refusal :=
  if s.halt.halted then .fault (.alreadyHalted s.halt) else runStep s

/-- The state with an instruction word, numbered as the opcode table numbers it, stored where step fetches; nothing else
changes. It stands for the load of a program (log entry 11). -/
def State.withFetchWord (s : State) (nbits w : Nat) : State := s.placeWord (tableWord nbits w)

end Sys2Proof.Machine
end

