-- ==== Sys2Proof/Safety.lean ====
section
/-! DEFINITION. The terms of the claims: the invariant of the machine, frames, what each instruction may write by the spec,
the check each instruction has, runs, the end of a run and the reference schedule of ticks. -/

namespace Sys2Proof.Machine

/-! ### The invariant -/

/-- The stack holds at most STACK_DEPTH entries (spec/10_state.md R32). -/
def stackWithin (depth : Option Nat) (sp : Nat) : Bool :=
  match depth with
  | none => true
  | some d => sp ≤ d

/-- What holds of every state a run reaches: memory in canonical form; at most STACK_DEPTH return addresses, each at most
0x1000 (spec/40_control_flow.md R121); pc at most 0x10FE (spec/10_state.md R27); the core not halted (R257). -/
def State.inv (s : State) : Bool :=
  s.mem.wf && stackWithin Config.stackDepth s.sp && s.stack.all (fun a => a.toNat ≤ 0x1000)
    && decide (s.pc.toNat ≤ 0x10FE) && !s.halt.halted

/-! ### Frames -/

/-- The parts of the state. -/
inductive Part where
  | v | index | pc | stack | dt | st | fb | mem | halt | inputs
deriving DecidableEq, Repr

/-- A part reads the same in two states: every register, every byte of memory. -/
def Part.Same (s t : State) : Part → Prop
  | .v => ∀ r, t.readV r = s.readV r
  | .index => t.index = s.index
  | .pc => t.pc = s.pc
  | .stack => t.stack = s.stack
  | .dt => t.dt = s.dt
  | .st => t.st = s.st
  | .fb => t.fb = s.fb
  | .mem => ∀ a, t.mem.read a = s.mem.read a
  | .halt => t.halt = s.halt
  | .inputs => t.inputs = s.inputs ∧ t.drawn = s.drawn ∧ t.sinceReset = s.sinceReset

/-- Every part but the listed ones reads the same in t as in s. -/
def KeepsAllBut (parts : List Part) (s t : State) : Prop := ∀ p, p ∉ parts → p.Same s t

/-- Every V register but the listed ones reads the same in t as in s. -/
def KeepsRegsBut (regs : List Reg) (s t : State) : Prop := ∀ r, r ∉ regs → t.readV r = s.readV r

/-- Every byte of memory outside n bytes from a on reads the same in t as in s. -/
def KeepsMemOutside (a n : Nat) (s t : State) : Prop := ∀ b, ¬(a ≤ b ∧ b < a + n) → t.mem.read b = s.mem.read b

/-- A function applied to the next state of an outcome. -/
def onNext (f : State → State) : Result → Result
  | .next t => .next (f t)
  | .fault e => .fault e
  | .refused r => .refused r

/-! ### Sprites -/

/-- Pixel q is a target of the sprite of N rows that DXYN draws: some set bit of row i, column j lands on it
(spec/43_display.md R191). -/
def State.spriteHits (s : State) (x y : Reg) (n : Nibble) (q : Nat) : Prop :=
  ∃ i < n.toNat, ∃ j < 8, (s.mem.read (s.index.toNat + i)).getLsbD (7 - j) = true ∧
    q = (((s.readV y).toNat % 32 + i) * 64 + ((s.readV x).toNat % 64 + j)) % 2048

end Sys2Proof.Machine

namespace Sys2Proof

open Sys2Proof.Machine

/-! ### What each instruction may write, by the spec -/

/-- The parts an instruction may write. V: spec/10_state.md R23 and the destinations of files 41 to 44. I: R29. The stack:
R33, R34. DT: R40. ST: R41. The display: R39. Memory: spec/20_memory.md R61. pc beyond the fetch increment: R25. -/
def Instr.mayWrite : Instr → List Part
  | .cls => [.fb]
  | .ret => [.pc, .stack]
  | .nop0 _ => []
  | .jp _ => [.pc]
  | .call _ => [.pc, .stack]
  | .seImm _ _ | .sneImm _ _ | .seReg _ _ | .sneReg _ _ => [.pc]
  | .ldImm _ _ | .addImm _ _ | .ldReg _ _ | .orReg _ _ | .andReg _ _ | .xorReg _ _ => [.v]
  | .addReg _ _ | .sub _ _ | .shr _ _ | .subn _ _ | .shl _ _ => [.v]
  | .nop8 _ _ _ => []
  | .ldI _ => [.index]
  | .jpV0 _ => [.pc]
  | .rnd _ _ => [.v]
  | .drw _ _ _ => [.v, .fb]
  | .skp _ | .sknp _ => [.pc]
  | .illE _ _ => []
  | .ldVxDt _ => [.v]
  | .ldVxK _ => [.v, .pc]
  | .ldDtVx _ => [.dt]
  | .ldStVx _ => [.st]
  | .addI _ => [.v, .index]
  | .ldF _ => [.index]
  | .ldB _ | .stRegs _ => [.mem]
  | .ldRegs _ => [.v]
  | .illF _ _ => []

/-- The V registers an instruction may write: its explicit destination, and VF where R23 lists it (spec/10_state.md R23).
SUBN's destination follows SUBN_DEST (spec/41_alu.md R150). -/
def Instr.regsWritten : Instr → List Reg
  | .ldImm x _ | .addImm x _ | .ldReg x _ | .orReg x _ | .andReg x _ | .xorReg x _ | .rnd x _ => [x]
  | .addReg x _ | .sub x _ | .shr x _ | .shl x _ => [x, VF]
  | .subn x y => [match Config.subnDest with | .y => y | .x => x, VF]
  | .drw _ _ _ | .addI _ => [VF]
  | .ldVxDt x | .ldVxK x => [x]
  | .ldRegs x => (List.finRange 16).filter fun r => r ≤ x
  | .cls | .ret | .nop0 _ | .jp _ | .call _ | .seImm _ _ | .sneImm _ _ | .seReg _ _ | .sneReg _ _ => []
  | .nop8 _ _ _ | .ldI _ | .jpV0 _ | .skp _ | .sknp _ | .illE _ _ | .ldDtVx _ | .ldStVx _ | .ldF _ => []
  | .ldB _ | .stRegs _ | .illF _ _ => []

/-- How many bytes an instruction stores, all from I on (spec/20_memory.md R73). -/
def Instr.bytesStored : Instr → Nat
  | .ldB _ => 3
  | .stRegs x => x.val + 1
  | .cls | .ret | .nop0 _ | .jp _ | .call _ | .seImm _ _ | .sneImm _ _ | .seReg _ _ | .sneReg _ _ => 0
  | .ldImm _ _ | .addImm _ _ | .ldReg _ _ | .orReg _ _ | .andReg _ _ | .xorReg _ _ | .addReg _ _ | .sub _ _ => 0
  | .shr _ _ | .subn _ _ | .shl _ _ | .nop8 _ _ _ | .ldI _ | .jpV0 _ | .rnd _ _ | .drw _ _ _ | .skp _ => 0
  | .sknp _ | .illE _ _ | .ldVxDt _ | .ldVxK _ | .ldDtVx _ | .ldStVx _ | .addI _ | .ldF _ | .ldRegs _ => 0
  | .illF _ _ => 0

/-- The instructions that sample keys (spec/10_state.md R44). -/
def Instr.samplesKeys : Instr → Bool
  | .skp _ | .sknp _ | .ldVxK _ => true
  | .cls | .ret | .nop0 _ | .jp _ | .call _ | .seImm _ _ | .sneImm _ _ | .seReg _ _ | .sneReg _ _ => false
  | .ldImm _ _ | .addImm _ _ | .ldReg _ _ | .orReg _ _ | .andReg _ _ | .xorReg _ _ | .addReg _ _ | .sub _ _ => false
  | .shr _ _ | .subn _ _ | .shl _ _ | .nop8 _ _ _ | .ldI _ | .jpV0 _ | .rnd _ _ | .drw _ _ _ | .illE _ _ => false
  | .ldVxDt _ | .ldDtVx _ | .ldStVx _ | .addI _ | .ldF _ | .ldB _ | .stRegs _ | .ldRegs _ | .illF _ _ => false

/-- The one instruction that consumes rnd (spec/10_state.md R45). -/
def Instr.consumesRnd : Instr → Bool
  | .rnd _ _ => true
  | .cls | .ret | .nop0 _ | .jp _ | .call _ | .seImm _ _ | .sneImm _ _ | .seReg _ _ | .sneReg _ _ => false
  | .ldImm _ _ | .addImm _ _ | .ldReg _ _ | .orReg _ _ | .andReg _ _ | .xorReg _ _ | .addReg _ _ | .sub _ _ => false
  | .shr _ _ | .subn _ _ | .shl _ _ | .nop8 _ _ _ | .ldI _ | .jpV0 _ | .drw _ _ _ | .illE _ _ | .skp _ => false
  | .sknp _ | .ldVxDt _ | .ldVxK _ | .ldDtVx _ | .ldStVx _ | .addI _ | .ldF _ | .ldB _ | .stRegs _ => false
  | .ldRegs _ | .illF _ _ => false

/-! ### The check of each instruction -/

/-- The cause of the one check a decoded instruction has, where it fails (spec/60_exceptions.md R221, R226). -/
def Instr.failingCheck (i : Instr) (s : State) : Option (Word → Word → Fault) :=
  match i with
  | .illE _ _ => some .unknownESub
  | .illF _ _ => some .unknownFSub
  | .ret => if s.sp = 0 then some .stackUnderflow else none
  | .call _ => if ∃ d ∈ Config.stackDepth, d ≤ s.sp then some .stackOverflow else none
  | .skp x | .sknp x => if 15 < (s.readV x).toNat then some .badKeyIndex else none
  | .drw _ _ n => if 1 ≤ n.toNat ∧ 4095 < s.index.toNat + n.toNat - 1 then some .outOfBounds else none
  | .ldB _ => if 4095 < s.index.toNat + 2 then some .outOfBounds else none
  | .stRegs x | .ldRegs x => if 4095 < s.index.toNat + x.val then some .outOfBounds else none
  | .cls | .nop0 _ | .jp _ | .seImm _ _ | .sneImm _ _ | .seReg _ _ | .sneReg _ _ | .ldImm _ _ => none
  | .addImm _ _ | .ldReg _ _ | .orReg _ _ | .andReg _ _ | .xorReg _ _ | .addReg _ _ | .sub _ _ | .shr _ _ => none
  | .subn _ _ | .shl _ _ | .nop8 _ _ _ | .ldI _ | .jpV0 _ | .rnd _ _ | .ldVxDt _ | .ldVxK _ | .ldDtVx _ => none
  | .ldStVx _ | .addI _ | .ldF _ => none

end Sys2Proof

namespace Sys2Proof.Machine

/-! ### Runs -/

/-- A run of steps leads from s to t without a stop. -/
def Reaches (s t : State) : Prop := ∃ k, Sys2Proof.core.run k s = .next t

/-- The end of a run by the spec's idiom: the word at pc is a JP to its own address (spec/70_reset_and_hazards.md R268). -/
def State.finished (s : State) : Prop := ∃ w a, s.fetch = some w ∧ decodeWord w = .jp a ∧ addrOperand a = s.pc

/-- The ticks of the reference schedule on the boundary after the step numbered n since reset, counted from 0: one after
every IPF steps (spec/70_reset_and_hazards.md R259; log entry 13). -/
def referenceTicks (ipf n : Nat) : Nat := if (n + 1) % ipf = 0 then 1 else 0

/-- The ticks of the next n steps, settled or free, follow the reference schedule, counted from the last reset
(spec/70_reset_and_hazards.md R259). It is a premise of claims (log entry 13). -/
def State.onReferenceSchedule (ipf n : Nat) (s : State) : Prop :=
  ∀ k < n, (s.inputAt k).ticks = referenceTicks ipf (s.sinceReset + k)

/-- The input of a coming step with its ticks by the reference schedule. -/
def State.referenceInput (s : State) (ipf k : Nat) : HostInput :=
  { s.inputAt k with ticks := referenceTicks ipf (s.sinceReset + k) }

/-- The state with the ticks of the next n steps settled by the reference schedule, keys and rnd as they were: the Frame
Driver of spec/70_reset_and_hazards.md R259 for n steps (log entry 13). -/
def State.withReferenceTicks (s : State) (ipf n : Nat) : State :=
  { s with inputs := (List.range n).map (s.referenceInput ipf) ++ s.inputs.drop n }

end Sys2Proof.Machine
end

