-- ==== Sys2Proof/Certificates/Slice0/Obligations.lean ====
section
/-! DEFINITION. The statements for the provers, from the numbered rules of spec/. Each holds for every state and every
operand that meets its hypotheses; each docstring names the rules it formalises. -/

open Sys2Proof Sys2Proof.Machine

/-! ### Encoding -/

/-- One word of each family decodes to the instruction it stands for (the words of R95's patterns, R106 and the vectors of
spec/95_test_vectors.md). -/
def Obligations.KnownWordsDecode : Prop :=
  decodeWord 0x00E0 = .cls ∧ decodeWord 0x01E0 = .nop0 0x1E0 ∧ decodeWord 0x12A0 = .jp 0x2A0 ∧
    decodeWord 0x5121 = .seReg 1 2 ∧ decodeWord 0x632A = .ldImm 3 0x2A ∧ decodeWord 0x8014 = .addReg 0 1 ∧
    decodeWord 0x8128 = .nop8 1 2 8 ∧ decodeWord 0xA300 = .ldI 0x300 ∧ decodeWord 0xD125 = .drw 1 2 5 ∧
    decodeWord 0xE5A1 = .sknp 5 ∧ decodeWord 0xE000 = .illE 0 0x00 ∧ decodeWord 0xF433 = .ldB 4 ∧
    decodeWord 0xF075 = .illF 0 0x75

/-- R91: each field of a word is the stated slice of its bits, as a number, NN and NNN are made of the nibbles, and the two
bytes of the word are CAT ++ X and NN. -/
def Obligations.FieldsAreBitSlices : Prop :=
  ∀ w : Word,
    (catOf w).toNat = w.toNat / 4096 ∧ (xOf w).val = w.toNat / 256 % 16 ∧ (yOf w).val = w.toNat / 16 % 16 ∧
      (nOf w).toNat = w.toNat % 16 ∧
      (nnOf w).toNat = (yOf w).val * 16 + (nOf w).toNat ∧
      (nnnOf w).toNat = (xOf w).val * 256 + (yOf w).val * 16 + (nOf w).toNat ∧
      ∀ hi lo : Byte, wordOfBytes hi lo = w → hi.toNat = (catOf w).toNat * 16 + (xOf w).val ∧ lo = nnOf w

/-- Decoding the word of a well-formed instruction, or its bytes in memory order, gives the instruction back, with every
operand at every value (R90, R92, R95). -/
def Obligations.DecodeOfEncode : Prop :=
  ∀ i : Instr, i.wellFormed = true →
    decodeWord (encode i) = i ∧ ∀ rest, decodeBytes (bytesOfWord (encode i) ++ rest) = .instr i rest

/-- Encoding the instruction of a word gives the word back, but for the low nibble of categories 5 and 9, which decoding
ignores; and every word decodes to a well-formed instruction (R91, R97, R98, R101). -/
def Obligations.EncodeOfDecode : Prop :=
  ∀ w : Word, (decodeWord w).wellFormed = true ∧
    encode (decodeWord w) = if catOf w = 0x5 ∨ catOf w = 0x9 then w &&& 0xFFF0 else w

/-- R98: the decoder takes the first row of the opcode map that a word matches; two rows match one word only in the
categories 0, 8, E and F; the catch-all rows take exactly the words the rule lists. -/
def Obligations.DecodeTakesFirstMatchingRow : Prop :=
  (∀ w : Word, selectedRow w = some (decodeWord w).row) ∧
    (∀ (w : Word) (a b : OpcodeRow), a ∈ opcodeMap → b ∈ opcodeMap → w &&& a.mask = a.value → w &&& b.mask = b.value →
      a ≠ b → catOf w = 0x0 ∨ catOf w = 0x8 ∨ catOf w = 0xE ∨ catOf w = 0xF) ∧
    (∀ w : Word, (decodeWord w = .nop0 (nnnOf w) ↔ catOf w = 0x0 ∧ nnnOf w ∉ [0x0E0, 0x0EE])) ∧
    (∀ w : Word, (decodeWord w = .nop8 (xOf w) (yOf w) (nOf w) ↔ catOf w = 0x8 ∧ nOf w ∈ [0x8, 0x9, 0xA, 0xB, 0xC, 0xD, 0xF])) ∧
    (∀ w : Word, (decodeWord w = .illE (xOf w) (nnOf w) ↔ catOf w = 0xE ∧ nnOf w ∉ [0x9E, 0xA1])) ∧
    ∀ w : Word, (decodeWord w = .illF (xOf w) (nnOf w) ↔
      catOf w = 0xF ∧ nnOf w ∉ [0x07, 0x0A, 0x15, 0x18, 0x1E, 0x29, 0x33, 0x55, 0x65])

/-! ### Memory -/

/-- R72: an access of n bytes fails exactly if its last address is above 4095; addresses do not wrap. -/
def Obligations.AccessFailsAbove4095 : Prop :=
  ∀ (s : State) (a n : Nat), 1 ≤ n →
    (s.readBytes a n = none ↔ 4095 < a + n - 1) ∧
      ∀ bs : List Byte, bs.length = n → (s.writeBytes a bs = none ↔ 4095 < a + n - 1)

/-! ### The step -/

/-- R254: a core that is not halted runs the instruction that the fetched word decodes to, with pc advanced by 2 first; the
boundary, which is the model's form of the ticks (log entry 3), follows a next state, and a fault ends the step. A failing
fetch is Fatal(OutOfBounds), whatever fault_ir is (log entry 8). -/
def Obligations.StepRunsDecodedInstruction : Prop :=
  ∀ s : State, s.halt.halted = false →
    (∀ (w : Word) (i : Instr), s.fetch = some w → decodeWord w = i →
      step s = (match exec i (s.setPc (s.pc + 2)) with
        | .next t => .next t.boundary
        | .fault f => .fault f
        | .refused r => .refused r)) ∧
      (s.fetch = none → ∃ ir, step s = .fault (.outOfBounds ir s.pc))

/-- The word that withFetchWord stores is the one the very next step runs (R68, R254). -/
def Obligations.PlacedWordRunsNext : Prop :=
  ∀ (s : State) (w : Word), s.halt.halted = false → s.pc.toNat ≤ 0x0FFE →
    (s.withFetchWord 16 w.toNat).fetch = some w ∧ decodeTableWord 16 w.toNat = some (decodeWord w) ∧
      step (s.withFetchWord 16 w.toNat) =
        endStep (exec (decodeWord w) ((s.withFetchWord 16 w.toNat).setPc (s.pc + 2)))

/-- R255: the fetch reads pc as the high byte and pc + 1 as the low byte; from 0x0FFF on the step is Fatal(OutOfBounds)
with fault_pc = pc, whatever fault_ir is (log entry 8). -/
def Obligations.FetchIsBigEndianAndBounded : Prop :=
  (∀ s : State, s.pc.toNat ≤ 0x0FFE →
      ∃ w, s.fetch = some w ∧
        w.toNat = 256 * (s.mem.read s.pc.toNat).toNat + (s.mem.read (s.pc.toNat + 1)).toNat) ∧
    ∀ s : State, 0x0FFF ≤ s.pc.toNat → s.halt.halted = false → ∃ ir, step s = .fault (.outOfBounds ir s.pc)

/-- R257: a halted core takes no steps; the outcome that says so is the model's (log entry 16). -/
def Obligations.HaltedCoreTakesNoStep : Prop :=
  ∀ s : State, s.halt.halted = true → (∀ t, step s ≠ .next t) ∧ step s = .fault (.alreadyHalted s.halt)

/-- The boundary after a step: the ticks of the step's inputs lower each timer, never below zero; the inputs are spent; all
else but the counts of steps stays (R42, R258, R260; the boundary is the model's, log entries 1 and 3). The free values are covered: the statement
holds whatever the ticks are. -/
def Obligations.BoundaryAppliesTicks : Prop :=
  ∀ s : State,
    s.boundary.dt.toNat = s.dt.toNat - s.input.ticks ∧ s.boundary.st.toNat = s.st.toNat - s.input.ticks ∧
      s.boundary.inputs = s.inputs.tail ∧ s.boundary.drawn = s.drawn + 1 ∧
      s.boundary.sinceReset = s.sinceReset + 1 ∧
      KeepsAllBut [.dt, .st, .inputs] s s.boundary

/-- R258: a tick lowers each nonzero timer by one, independently, leaves a zero timer, and changes nothing else; n ticks at
a boundary are n such events (the count at a boundary is the model's, log entry 3). -/
def Obligations.TickLowersNonzeroTimers : Prop :=
  (∀ s : State, (0 < s.dt.toNat → s.tick.dt.toNat + 1 = s.dt.toNat) ∧ (s.dt = 0 → s.tick.dt = 0) ∧
      (0 < s.st.toNat → s.tick.st.toNat + 1 = s.st.toNat) ∧ (s.st = 0 → s.tick.st = 0) ∧
      KeepsAllBut [.dt, .st] s s.tick) ∧
    ∀ (s : State) (n : Nat), s.ticks n = State.tick^[n] s

/-- R25: pc after a step, by instruction class, relative to the address the instruction was fetched from. -/
def Obligations.PcAfterStep : Prop :=
  ∀ (s s' : State) (w : Word), s.fetch = some w → step s = .next s' →
    match decodeWord w with
    | .jp nnn => s'.pc.toNat = nnn.toNat
    | .call nnn => s'.pc.toNat = nnn.toNat ∧ s'.stack = s.stack ++ [s.pc + 2]
    | .ret => s.stack = s'.stack ++ [s'.pc]
    | .jpV0 nnn => s'.pc.toNat = nnn.toNat + (s.readV 0).toNat
    | .seImm x nn => s'.pc = if s.readV x = nn then s.pc + 4 else s.pc + 2
    | .sneImm x nn => s'.pc = if s.readV x = nn then s.pc + 2 else s.pc + 4
    | .seReg x y => s'.pc = if s.readV x = s.readV y then s.pc + 4 else s.pc + 2
    | .sneReg x y => s'.pc = if s.readV x = s.readV y then s.pc + 2 else s.pc + 4
    | .skp x => s'.pc = if s.keys.getLsbD (s.readV x).toNat then s.pc + 4 else s.pc + 2
    | .sknp x => s'.pc = if s.keys.getLsbD (s.readV x).toNat then s.pc + 2 else s.pc + 4
    | .ldVxK _ => s'.pc = if s.keys = 0 then s.pc else s.pc + 2
    | _ => s'.pc = s.pc + 2

/-- The invariant that every step keeps, from any state that meets it: canonical memory, a stack within STACK_DEPTH whose
entries are at most 0x1000, pc at most 0x10FE, not halted (R27, R32, R121, R257). The canonical form (log entry 20),
STACK_DEPTH (log entry 4) and the outcome of a halted core (log entry 16) are the model's. -/
def Obligations.StepKeepsInvariant : Prop := ∀ s s' : State, s.inv = true → step s = .next s' → s'.inv = true

/-- The invariant holds after reset, with any program image the loader takes (R250, R252). -/
def Obligations.LoadedStateMeetsInvariant : Prop :=
  State.reset.inv = true ∧ ∀ (image : List Byte) (s : State), State.load image = some s → s.inv = true

/-! ### Reset -/

/-- R251: the registers at the release of reset. -/
def Obligations.ResetRegisters : Prop :=
  (∀ r, State.reset.readV r = 0) ∧ State.reset.index = 0 ∧ State.reset.pc = 0x0200 ∧ State.reset.dt = 0 ∧
    State.reset.st = 0 ∧ State.reset.sp = 0 ∧ (∀ k, State.reset.pixel k = false) ∧
    State.reset.halt.halted = false ∧ State.reset.halt.faultCode = 0

/-- R252: memory at the release of reset is zero, then the font (the model's FONT, log entry 6), then the image at 0x200;
a longer image is refused. -/
def Obligations.LoadBuildsMemory : Prop :=
  Config.font.length = 80 ∧
    (∀ image : List Byte, image.length ≤ 3584 →
      ∃ s, State.load image = some s ∧
        (∀ k b, image[k]? = some b → s.mem.read (0x200 + k) = b) ∧
        (∀ k b, Config.font[k]? = some b → s.mem.read (0x050 + k) = b) ∧
        (∀ a, a < 0x050 ∨ (0x0A0 ≤ a ∧ a < 0x200) ∨ 0x200 + image.length ≤ a → s.mem.read a = 0) ∧
        KeepsAllBut [.mem] State.reset s) ∧
    ∀ image : List Byte, 3584 < image.length → State.load image = none

/-- R250, R223: reset during a run leads from any state, a halted one included, to the state of a load with that image, in
which the core is not halted and no step has been taken since reset (log entry 13); only the inputs, which are the model's
own fields (log entries 1 and 19), go on. -/
def Obligations.ResetLeavesAnyState : Prop :=
  ∀ (s : State) (image : List Byte),
    (image.length ≤ 3584 →
      ∃ t u, s.restart image = some t ∧ State.load image = some u ∧ KeepsAllBut [.inputs] u t ∧
        t.halt.halted = false ∧ t.pc = 0x0200 ∧ t.inputs = s.inputs ∧ t.drawn = s.drawn ∧ t.sinceReset = 0) ∧
      (3584 < image.length → s.restart image = none)

/-! ### Faults -/

/-- Every instruction completes unless its one check fails, and then it raises exactly that cause, with its own word and
address (R221, R226). STACK_DEPTH is the model's parameter (log entry 4). -/
def Obligations.CompletesUnlessItsCheckFails : Prop :=
  ∀ (i : Instr) (s : State),
    match i.failingCheck s with
    | none => ∃ t, exec i s = .next t
    | some cause => exec i s = .fault (cause (encode i) (s.pc - 2))

/-- R222: what a fault of a running core leaves in the four fault registers: halted, its code, the word executed and the
address it was fetched from; for a fault of the fetch, code 5 and the pc that could not be fetched, whatever fault_ir is.
The codes of the causes are those of R221. -/
def Obligations.FaultEntryRegisters : Prop :=
  (∀ ir pc : Word,
    (Fault.stackUnderflow ir pc).code = 1 ∧ (Fault.unknownCategory ir pc).code = 2 ∧
      (Fault.unknownESub ir pc).code = 3 ∧ (Fault.unknownFSub ir pc).code = 4 ∧ (Fault.outOfBounds ir pc).code = 5 ∧
      (Fault.stackOverflow ir pc).code = 6 ∧ (Fault.badKeyIndex ir pc).code = 7) ∧
  ∀ (s : State) (f : Fault), s.halt.halted = false → step s = .fault f →
    (∀ w, s.fetch = some w → haltRegsAfter s (step s) = ⟨true, f.code, w, s.pc⟩) ∧
      (s.fetch = none → ∃ ir, haltRegsAfter s (step s) = ⟨true, 5, ir, s.pc⟩)

/-- R232: UnknownCategory is never raised, and no step is refused. -/
def Obligations.UnknownCategoryNeverRaised : Prop :=
  ∀ s : State, (∀ ir pc, step s ≠ .fault (.unknownCategory ir pc)) ∧ ∀ r, step s ≠ .refused r

/-! ### The whole machine -/

/-- An instruction leaves every part of the state but those the spec lets it write (R23, R29, R33, R34, R39, R40, R41, R46,
R61). -/
def Obligations.OnlyListedPartsChange : Prop :=
  ∀ (i : Instr) (s t : State), exec i s = .next t → KeepsAllBut i.mayWrite s t

/-- An instruction leaves every V register but its destinations and the VF of R23 (R20, R23, R150; SUBN_DEST is the model's
parameter, log entry 5). -/
def Obligations.OnlyListedRegistersChange : Prop :=
  ∀ (i : Instr) (s t : State), exec i s = .next t → KeepsRegsBut i.regsWritten s t

/-- An instruction leaves every byte of memory but those it stores: 3 for LD_B, X + 1 for ST_REGS, from I on, none for any
other (R61, R73, R176). -/
def Obligations.OnlyStoredBytesChange : Prop :=
  ∀ (i : Instr) (s t : State), exec i s = .next t → KeepsMemOutside s.base i.bytesStored s t

/-- The instructions that write VF as a flag leave 0 or 1 in it; ADD_I leaves 1 or the old value (R22, R23). -/
def Obligations.FlagWritersLeaveZeroOrOne : Prop :=
  (∀ (x y : Reg) (n : Nibble) (i : Instr) (s t : State),
      i ∈ [Instr.addReg x y, .sub x y, .shr x y, .subn x y, .shl x y, .drw x y n] → exec i s = .next t →
      t.readV VF = 0 ∨ t.readV VF = 1) ∧
    ∀ (x : Reg) (s t : State), exec (.addI x) s = .next t → t.readV VF = s.readV VF ∨ t.readV VF = 1

/-- No instruction reads or writes the halt and fault registers: with other values in them it does the same, and they stay
(R46, R225). -/
def Obligations.FaultRegistersOutOfReach : Prop :=
  ∀ (i : Instr) (s : State) (h : HaltRegs),
    exec i { s with halt := h } = onNext (fun t => { t with halt := h }) (exec i s)

/-- No instruction reads ST: with another value in it every instruction does the same, and ST stays but for LD_ST_VX
(R41). -/
def Obligations.SoundTimerNeverRead : Prop :=
  ∀ (i : Instr) (s : State) (b : Byte),
    exec i { s with st := b } =
      onNext (fun t => { t with st := match i with | .ldStVx _ => t.st | _ => b }) (exec i s)

/-- The display is read by DRW alone: any other instruction does the same with another picture, which stays but for CLS
(R39). -/
def Obligations.DisplayReadOnlyByDraw : Prop :=
  ∀ (i : Instr) (s : State) (d : BitVec 2048), (∀ x y n, i ≠ .drw x y n) →
    exec i { s with fb := d } = onNext (fun t => { t with fb := if i = .cls then t.fb else d }) (exec i s)

/-- keys is seen by SKP, SKNP and LD_VX_K alone, rnd by RND alone: under other inputs that agree on what the instruction
samples it does the same (R44, R45). -/
def Obligations.InputsSeenOnlyBySamplers : Prop :=
  ∀ (i : Instr) (s : State) (l : List HostInput) (n m : Nat),
    (i.samplesKeys = true → State.keys { s with inputs := l, drawn := n, sinceReset := m } = s.keys) →
    (i.consumesRnd = true → State.rnd { s with inputs := l, drawn := n, sinceReset := m } = s.rnd) →
      exec i { s with inputs := l, drawn := n, sinceReset := m } =
        onNext (fun t => { t with inputs := l, drawn := n, sinceReset := m }) (exec i s)

/-- A stored block is what the next fetch sees: after ST_REGS, a pc on entry k of the block fetches Vk and V(k+1)
(R80). -/
def Obligations.StoredBlockIsFetched : Prop :=
  ∀ (x k : Reg) (s t : State), exec (.stRegs x) s = .next t → k < x → s.pc.toNat = s.index.toNat + k.val →
    t.fetch = some (wordOfBytes (s.readV k) (s.readV (k + 1)))

/-- A JP to its own address is the end of a run: every step after it is a next state in which only ticks and the spent
inputs show (R268). -/
def Obligations.FinishedStaysFinished : Prop :=
  ∀ s : State, s.halt.halted = false → s.finished →
    ∃ s', step s = .next s' ∧ s'.finished ∧ KeepsAllBut [.dt, .st, .inputs] s s'

/-- The reference schedule of R259, a premise of claims (log entry 13). It gives one tick in every IPF steps. It counts from
the last reset: at reset, after a load and after a reset during a run no step has been taken. Every state, whether its
inputs are settled or free, can have the ticks of its next n steps put on it, with keys and rnd as they were. A step on it,
whatever the instruction, LD_VX_K polling included, is followed by one tick exactly if its number since reset, counted from
1, is a multiple of IPF, and leaves the later steps on it. -/
def Obligations.ReferenceScheduleOneTickPerFrame : Prop :=
  (∀ ipf k : Nat, 0 < ipf → ((List.range (ipf * k)).map (referenceTicks ipf)).sum = k) ∧
    (State.reset.sinceReset = 0 ∧ (∀ (image : List Byte) (s : State), State.load image = some s → s.sinceReset = 0) ∧
      ∀ (s t : State) (image : List Byte), s.restart image = some t → t.sinceReset = 0) ∧
    (∀ (ipf n : Nat) (s : State),
      (s.withReferenceTicks ipf n).onReferenceSchedule ipf n ∧
        (∀ k, ((s.withReferenceTicks ipf n).inputAt k).keys = (s.inputAt k).keys ∧
          ((s.withReferenceTicks ipf n).inputAt k).rnd = (s.inputAt k).rnd) ∧
        KeepsAllBut [.inputs] s (s.withReferenceTicks ipf n)) ∧
    (∀ (ipf n : Nat) (s : State), s.onReferenceSchedule ipf (n + 1) → s.boundary.onReferenceSchedule ipf n) ∧
    ∀ (ipf n : Nat) (s s' : State) (w : Word), s.onReferenceSchedule ipf (n + 1) → s.fetch = some w → step s = .next s' →
      s'.onReferenceSchedule ipf n ∧ s'.sinceReset = s.sinceReset + 1 ∧
        ∃ t, exec (decodeWord w) (s.setPc (s.pc + 2)) = .next t ∧
          s' = (if (s.sinceReset + 1) % ipf = 0 then t.tick else t).nextInputs

/-! ### Control flow -/

/-- R120, R152: the unassigned words of categories 0 and 8 change nothing. -/
def Obligations.NopsChangeNothing : Prop :=
  (∀ nnn : Addr, nnn ≠ 0x0E0 → nnn ≠ 0x0EE → decodeWord (wordNNN 0x0 nnn) = .nop0 nnn) ∧
    (∀ (x y : Reg) (n : Nibble), n ∈ [0x8, 0x9, 0xA, 0xB, 0xC, 0xD, 0xF] →
      decodeWord (wordXYN 0x8 x y n) = .nop8 x y n) ∧
    ∀ (nnn : Addr) (x y : Reg) (n : Nibble) (s : State),
      ∃ t u, exec (.nop0 nnn) s = .next t ∧ exec (.nop8 x y n) s = .next u ∧ KeepsAllBut [] s t ∧ KeepsAllBut [] s u

/-- R121: RET pops the most recent return address into pc as it is, at most 0x1000 where every entry is; on an empty stack
it is Fatal(StackUnderflow). -/
def Obligations.RetPopsReturnAddress : Prop :=
  decodeWord 0x00EE = .ret ∧
    (∀ (s : State) (l : List Word) (v : Word), s.stack = l ++ [v] →
      ∃ t, exec .ret s = .next t ∧ t.pc = v ∧ t.stack = l ∧ KeepsAllBut [.pc, .stack] s t ∧
        (s.inv = true → t.pc.toNat ≤ 0x1000)) ∧
    ∀ s : State, s.stack = [] → exec .ret s = .fault (.stackUnderflow 0x00EE (s.pc - 2))

/-- R122, R128: JP sets pc to NNN, odd or even; JP_V0 sets it to NNN + V0, not masked to 12 bits (the spec's decision D12),
always V0. -/
def Obligations.JumpsSetPc : Prop :=
  ∀ nnn : Addr,
    decodeWord (wordNNN 0x1 nnn) = .jp nnn ∧ decodeWord (wordNNN 0xB nnn) = .jpV0 nnn ∧
      ∀ s : State,
        (∃ t, exec (.jp nnn) s = .next t ∧ t.pc.toNat = nnn.toNat ∧ KeepsAllBut [.pc] s t) ∧
        ∃ t, exec (.jpV0 nnn) s = .next t ∧ t.pc.toNat = nnn.toNat + (s.readV 0).toNat ∧ KeepsAllBut [.pc] s t

/-- R123: CALL pushes the pc that already points past it and jumps; on a full stack it is Fatal(StackOverflow); an
unbounded stack is never full. STACK_DEPTH is the model's parameter (log entry 4). -/
def Obligations.CallPushesReturnAddress : Prop :=
  (∀ nnn : Addr, decodeWord (wordNNN 0x2 nnn) = .call nnn) ∧
    (∀ (nnn : Addr) (s : State), (∀ d ∈ Config.stackDepth, s.sp < d) →
      ∃ t, exec (.call nnn) s = .next t ∧ t.stack = s.stack ++ [s.pc] ∧ t.sp = s.sp + 1 ∧ t.pc.toNat = nnn.toNat ∧
        KeepsAllBut [.pc, .stack] s t) ∧
    (∀ (nnn : Addr) (s : State) (d : Nat), d ∈ Config.stackDepth → d ≤ s.sp →
      exec (.call nnn) s = .fault (.stackOverflow (wordNNN 0x2 nnn) (s.pc - 2))) ∧
    ∀ (s : State) (v : Word), s.push none v ≠ none

/-- R124, R125, R126, R127: each skip adds exactly 2 to pc when its condition holds; the skips on two registers do so for
every value of the ignored nibble N (the spec's decision D7); with X = Y, SE_REG always skips and SNE_REG never. -/
def Obligations.SkipsAddTwo : Prop :=
  ∀ (x y : Reg) (nn : Byte),
    decodeWord (wordXNN 0x3 x nn) = .seImm x nn ∧ decodeWord (wordXNN 0x4 x nn) = .sneImm x nn ∧
      (∀ n : Nibble, decodeWord (wordXYN 0x5 x y n) = .seReg x y ∧ decodeWord (wordXYN 0x9 x y n) = .sneReg x y) ∧
      ∀ s : State,
        (∃ t, exec (.seImm x nn) s = .next t ∧ t.pc = (if s.readV x = nn then s.pc + 2 else s.pc) ∧
          KeepsAllBut [.pc] s t) ∧
        (∃ t, exec (.sneImm x nn) s = .next t ∧ t.pc = (if s.readV x = nn then s.pc else s.pc + 2) ∧
          KeepsAllBut [.pc] s t) ∧
        (∃ t, exec (.seReg x y) s = .next t ∧ t.pc = (if s.readV x = s.readV y then s.pc + 2 else s.pc) ∧
          KeepsAllBut [.pc] s t ∧ (x = y → t.pc = s.pc + 2)) ∧
        ∃ t, exec (.sneReg x y) s = .next t ∧ t.pc = (if s.readV x = s.readV y then s.pc else s.pc + 2) ∧
          KeepsAllBut [.pc] s t ∧ (x = y → t.pc = s.pc)

/-! ### Registers and arithmetic -/

/-- R140, R141, R143: the loads of an immediate and of a register and the addition of an immediate, modulo 256, write VX
alone and no flag: VF changes only as the destination (the spec's decision D10). -/
def Obligations.LoadsAndAddImmWriteVx : Prop :=
  ∀ (x y : Reg) (nn : Byte),
    decodeWord (wordXNN 0x6 x nn) = .ldImm x nn ∧ decodeWord (wordXNN 0x7 x nn) = .addImm x nn ∧
      decodeWord (wordXYN 0x8 x y 0x0) = .ldReg x y ∧
      ∀ s : State,
        (∃ t, exec (.ldImm x nn) s = .next t ∧ t.readV x = nn ∧ KeepsRegsBut [x] s t ∧ KeepsAllBut [.v] s t) ∧
        (∃ t, exec (.addImm x nn) s = .next t ∧ (t.readV x).toNat = ((s.readV x).toNat + nn.toNat) % 256 ∧
          KeepsRegsBut [x] s t ∧ KeepsAllBut [.v] s t) ∧
        ∃ t, exec (.ldReg x y) s = .next t ∧ t.readV x = s.readV y ∧ KeepsRegsBut [x] s t ∧ KeepsAllBut [.v] s t

/-- R144, R145, R146: OR, AND, XOR are bitwise, write VX alone and write no flag (the spec's decision D10). -/
def Obligations.LogicIsBitwise : Prop :=
  ∀ x y : Reg,
    decodeWord (wordXYN 0x8 x y 0x1) = .orReg x y ∧ decodeWord (wordXYN 0x8 x y 0x2) = .andReg x y ∧
      decodeWord (wordXYN 0x8 x y 0x3) = .xorReg x y ∧
      ∀ s : State,
        (∃ t, exec (.orReg x y) s = .next t ∧ KeepsRegsBut [x] s t ∧ KeepsAllBut [.v] s t ∧
          ∀ k, (t.readV x).getLsbD k = ((s.readV x).getLsbD k || (s.readV y).getLsbD k)) ∧
        (∃ t, exec (.andReg x y) s = .next t ∧ KeepsRegsBut [x] s t ∧ KeepsAllBut [.v] s t ∧
          ∀ k, (t.readV x).getLsbD k = ((s.readV x).getLsbD k && (s.readV y).getLsbD k)) ∧
        ∃ t, exec (.xorReg x y) s = .next t ∧ KeepsRegsBut [x] s t ∧ KeepsAllBut [.v] s t ∧
          ∀ k, (t.readV x).getLsbD k = ((s.readV x).getLsbD k ^^ (s.readV y).getLsbD k)

/-- R147: ADD_REG: the sum modulo 256 in VX and the carry in VF, which keeps the carry when it is the destination (the
spec's decision D8). -/
def Obligations.AddRegSumAndCarry : Prop :=
  ∀ x y : Reg, decodeWord (wordXYN 0x8 x y 0x4) = .addReg x y ∧
    ∀ s : State, ∃ t, exec (.addReg x y) s = .next t ∧
      t.readV VF = (if 256 ≤ (s.readV x).toNat + (s.readV y).toNat then 1 else 0) ∧
      (x ≠ VF → (t.readV x).toNat = ((s.readV x).toNat + (s.readV y).toNat) % 256) ∧
      KeepsRegsBut [x, VF] s t ∧ KeepsAllBut [.v] s t

/-- R148: SUB: VX - VY modulo 256 in VX and no borrow in VF, which keeps the flag when it is the destination (the spec's
decision D8). -/
def Obligations.SubDifferenceAndNoBorrow : Prop :=
  ∀ x y : Reg, decodeWord (wordXYN 0x8 x y 0x5) = .sub x y ∧
    ∀ s : State, ∃ t, exec (.sub x y) s = .next t ∧
      t.readV VF = (if (s.readV y).toNat ≤ (s.readV x).toNat then 1 else 0) ∧
      (x ≠ VF → (t.readV x).toNat =
        if (s.readV y).toNat ≤ (s.readV x).toNat then (s.readV x).toNat - (s.readV y).toNat
        else (s.readV x).toNat + 256 - (s.readV y).toNat) ∧
      KeepsRegsBut [x, VF] s t ∧ KeepsAllBut [.v] s t

/-- R150: SUBN: VY - VX modulo 256, no borrow in VF, for each value of SUBN_DEST: in VY for Y, in VX for X. The machine's
instruction is the one with the model's SUBN_DEST (the spec's decision D9, log entry 5). -/
def Obligations.SubnForEachDestination : Prop :=
  ∀ x y : Reg, decodeWord (wordXYN 0x8 x y 0x7) = .subn x y ∧
    ∀ s : State, exec (.subn x y) s = .next (subnInto Config.subnDest x y s) ∧
      ∀ (dest : Config.SubnDest) (d : Reg) (t : State), d = (match dest with | .y => y | .x => x) →
        t = subnInto dest x y s →
        t.readV VF = (if (s.readV x).toNat ≤ (s.readV y).toNat then 1 else 0) ∧
        (d ≠ VF → (t.readV d).toNat =
          if (s.readV x).toNat ≤ (s.readV y).toNat then (s.readV y).toNat - (s.readV x).toNat
          else (s.readV y).toNat + 256 - (s.readV x).toNat) ∧
        KeepsRegsBut [d, VF] s t ∧ KeepsAllBut [.v] s t

/-- R149, R151: the shifts move VX by one place in place, for every value of the ignored Y, with the dropped bit in VF,
which keeps the flag when it is the destination (the spec's decisions D8, D11). -/
def Obligations.ShiftsByOne : Prop :=
  ∀ x y : Reg,
    decodeWord (wordXYN 0x8 x y 0x6) = .shr x y ∧ decodeWord (wordXYN 0x8 x y 0xE) = .shl x y ∧
      ∀ s : State,
        (∃ t, exec (.shr x y) s = .next t ∧ (t.readV VF).toNat = (s.readV x).toNat % 2 ∧
          (x ≠ VF → (t.readV x).toNat = (s.readV x).toNat / 2) ∧
          KeepsRegsBut [x, VF] s t ∧ KeepsAllBut [.v] s t) ∧
        ∃ t, exec (.shl x y) s = .next t ∧ (t.readV VF).toNat = (s.readV x).toNat / 128 ∧
          (x ≠ VF → (t.readV x).toNat = (s.readV x).toNat * 2 % 256) ∧
          KeepsRegsBut [x, VF] s t ∧ KeepsAllBut [.v] s t

/-- R153: RND writes the random byte of the step, whatever it is, masked by NN. -/
def Obligations.RndMasksRandomByte : Prop :=
  ∀ (x : Reg) (nn : Byte), decodeWord (wordXNN 0xC x nn) = .rnd x nn ∧
    ∀ s : State, ∃ t, exec (.rnd x nn) s = .next t ∧
      (∀ k, (t.readV x).getLsbD k = (s.rnd.getLsbD k && nn.getLsbD k)) ∧ (nn = 0xFF → t.readV x = s.rnd) ∧
      (nn = 0x00 → t.readV x = 0) ∧ KeepsRegsBut [x] s t ∧ KeepsAllBut [.v] s t

/-! ### Index register and memory -/

/-- R170, R172: LD_I sets I to NNN; LD_F sets it to 0x050 + 5 VX, the whole byte used (the spec's decision D20). -/
def Obligations.IndexLoads : Prop :=
  (∀ nnn : Addr, decodeWord (wordNNN 0xA nnn) = .ldI nnn ∧
      ∀ s : State, ∃ t, exec (.ldI nnn) s = .next t ∧ t.index.toNat = nnn.toNat ∧ KeepsAllBut [.index] s t) ∧
    ∀ x : Reg, decodeWord (wordXNN 0xF x 0x29) = .ldF x ∧
      ∀ s : State, ∃ t, exec (.ldF x) s = .next t ∧ t.index.toNat = 0x050 + 5 * (s.readV x).toNat ∧
        KeepsAllBut [.index] s t

/-- R171: ADD_I keeps the sum modulo 2^16 in I; VF gets 1 exactly when the true sum is at least 0x1000, and is left alone
otherwise (the spec's decision D18). -/
def Obligations.AddIFlagsLeavingRange : Prop :=
  ∀ x : Reg, decodeWord (wordXNN 0xF x 0x1E) = .addI x ∧
    ∀ s : State, ∃ t, exec (.addI x) s = .next t ∧
      t.index.toNat = (s.index.toNat + (s.readV x).toNat) % 65536 ∧
      t.readV VF = (if 0x1000 ≤ s.index.toNat + (s.readV x).toNat then 1 else s.readV VF) ∧
      KeepsRegsBut [VF] s t ∧ KeepsAllBut [.v, .index] s t

/-- R173: LD_B stores the hundreds, tens and ones of VX at I, I + 1, I + 2, and is Fatal(OutOfBounds) from I = 0x0FFE on. -/
def Obligations.LdBStoresDigits : Prop :=
  ∀ x : Reg, decodeWord (wordXNN 0xF x 0x33) = .ldB x ∧
    ∀ s : State,
      (s.index.toNat + 2 ≤ 4095 →
        ∃ t, exec (.ldB x) s = .next t ∧
          (t.mem.read s.index.toNat).toNat = (s.readV x).toNat / 100 ∧
          (t.mem.read (s.index.toNat + 1)).toNat = (s.readV x).toNat / 10 % 10 ∧
          (t.mem.read (s.index.toNat + 2)).toNat = (s.readV x).toNat % 10 ∧
          KeepsMemOutside s.index.toNat 3 s t ∧ KeepsAllBut [.mem] s t) ∧
      (4095 < s.index.toNat + 2 → exec (.ldB x) s = .fault (.outOfBounds (wordXNN 0xF x 0x33) (s.pc - 2)))

/-- R174: ST_REGS stores V0 to VX at I to I + X, leaves I (the spec's decision D22), and is Fatal(OutOfBounds) if I + X is
above 4095. -/
def Obligations.StRegsStoresBlock : Prop :=
  ∀ x : Reg, decodeWord (wordXNN 0xF x 0x55) = .stRegs x ∧
    ∀ s : State,
      (s.index.toNat + x.val ≤ 4095 →
        ∃ t, exec (.stRegs x) s = .next t ∧
          (∀ k : Reg, k ≤ x → t.mem.read (s.index.toNat + k.val) = s.readV k) ∧
          KeepsMemOutside s.index.toNat (x.val + 1) s t ∧ KeepsAllBut [.mem] s t) ∧
      (4095 < s.index.toNat + x.val → exec (.stRegs x) s = .fault (.outOfBounds (wordXNN 0xF x 0x55) (s.pc - 2)))

/-- R175: LD_REGS loads V0 to VX from I to I + X, leaves the registers above VX and I (the spec's decision D22), and is
Fatal(OutOfBounds) if I + X is above 4095. -/
def Obligations.LdRegsLoadsBlock : Prop :=
  ∀ x : Reg, decodeWord (wordXNN 0xF x 0x65) = .ldRegs x ∧
    ∀ s : State,
      (s.index.toNat + x.val ≤ 4095 →
        ∃ t, exec (.ldRegs x) s = .next t ∧
          (∀ k : Reg, k ≤ x → t.readV k = s.mem.read (s.index.toNat + k.val)) ∧
          (∀ k : Reg, x < k → t.readV k = s.readV k) ∧ KeepsAllBut [.v] s t) ∧
      (4095 < s.index.toNat + x.val → exec (.ldRegs x) s = .fault (.outOfBounds (wordXNN 0xF x 0x65) (s.pc - 2)))

/-! ### Display -/

/-- R190: CLS turns every pixel OFF and changes nothing else, VF included. -/
def Obligations.ClsClearsDisplay : Prop :=
  decodeWord 0x00E0 = .cls ∧
    ∀ s : State, ∃ t, exec .cls s = .next t ∧ (∀ q, t.pixel q = false) ∧ KeepsAllBut [.fb] s t

/-- R191: DRW inverts exactly the target pixels; VF is 1 if one of them was ON and 0 otherwise; the coordinates are those
VX and VY held before (the spec's decisions D14, D35); Fatal(OutOfBounds) if a row lies above 4095; no row is read for N = 0. -/
def Obligations.DrwTogglesTargets : Prop :=
  ∀ (x y : Reg) (n : Nibble), decodeWord (wordXYN 0xD x y n) = .drw x y n ∧
    ∀ s : State,
      (n = 0 ∨ s.index.toNat + n.toNat - 1 ≤ 4095 →
        ∃ t, exec (.drw x y n) s = .next t ∧
          (∀ q < 2048, (t.pixel q = true ↔ ¬(s.pixel q = true ↔ s.spriteHits x y n q))) ∧
          ((∃ q < 2048, s.pixel q = true ∧ s.spriteHits x y n q) → t.readV VF = 1) ∧
          ((¬∃ q < 2048, s.pixel q = true ∧ s.spriteHits x y n q) → t.readV VF = 0) ∧
          KeepsRegsBut [VF] s t ∧ KeepsAllBut [.v, .fb] s t) ∧
      (n ≠ 0 ∧ 4095 < s.index.toNat + n.toNat - 1 →
        exec (.drw x y n) s = .fault (.outOfBounds (wordXYN 0xD x y n) (s.pc - 2)))

/-- R193 (a): no two bits of one sprite, of at most 15 rows, address the same pixel. -/
def Obligations.SpriteTargetsDistinct : Prop :=
  ∀ (x0 y0 : Nat) (rows : List Byte), rows.length ≤ 15 → (spriteTargets x0 y0 rows).Nodup

/-- Where a target lands (R192): column c mod 64 of row r + c div 64 modulo 32, for an unreduced column c and row r; the index
before reduction is below 2 * 2048. -/
def Obligations.WrappedPixelsLandOnNextRow : Prop :=
  ∀ c r : Nat, pixelIndex c r = (r + c / 64) % 32 * 64 + c % 64 ∧
    (c ≤ 70 → r ≤ 45 → r * 64 + c ≤ 2950 ∧
      pixelIndex c r = if r * 64 + c < 2048 then r * 64 + c else r * 64 + c - 2048)

/-- R193 (b): the same sprite drawn twice at the same coordinates restores the display; VF then is 1 exactly if some target
was OFF at first. The second draw starts from the state the first leaves, with the same coordinates in VX and VY. -/
def Obligations.DrawTwiceRestoresDisplay : Prop :=
  ∀ (x y : Reg) (n : Nibble) (s t u : State), exec (.drw x y n) s = .next t → t.readV x = s.readV x →
    t.readV y = s.readV y → exec (.drw x y n) t = .next u →
      u.fb = s.fb ∧ ((∃ q < 2048, s.pixel q = false ∧ s.spriteHits x y n q) → u.readV VF = 1) ∧
        ((¬∃ q < 2048, s.pixel q = false ∧ s.spriteHits x y n q) → u.readV VF = 0)

/-- R193 (c): CLS followed by a draw gives exactly the sprite's pattern with VF = 0. -/
def Obligations.ClearThenDrawGivesPattern : Prop :=
  ∀ (x y : Reg) (n : Nibble) (s t u : State), exec .cls s = .next t → exec (.drw x y n) t = .next u →
    (∀ q < 2048, (u.pixel q = true ↔ s.spriteHits x y n q)) ∧ u.readV VF = 0

/-- R195: each pixel fills a SCALE by SCALE block of the row-major presentation view, WHITE for ON and BLACK for OFF
(the spec's decision D29). -/
def Obligations.PresentationReplicatesPixels : Prop :=
  ∀ (s : State) (scale r c dr dc : Nat), r < 32 → c < 64 → dr < scale → dc < scale →
    s.presentation scale ((r * scale + dr) * (64 * scale) + (c * scale + dc)) =
      if s.pixel (r * 64 + c) = true then 0xFFFFFF else 0x000000

/-! ### Keypad and timers -/

/-- R200, R201: SKP and SKNP test the level of the key numbered by the value of VX, whatever the inputs are, and are
Fatal(BadKeyIndex) for a value above 15 (the spec's decision D16). -/
def Obligations.KeySkipsTestLevel : Prop :=
  ∀ x : Reg,
    decodeWord (wordXNN 0xE x 0x9E) = .skp x ∧ decodeWord (wordXNN 0xE x 0xA1) = .sknp x ∧
      ∀ s : State,
        ((s.readV x).toNat ≤ 15 →
          (∃ t, exec (.skp x) s = .next t ∧
            t.pc = (if s.keys.getLsbD (s.readV x).toNat = true then s.pc + 2 else s.pc) ∧ KeepsAllBut [.pc] s t) ∧
          ∃ t, exec (.sknp x) s = .next t ∧
            t.pc = (if s.keys.getLsbD (s.readV x).toNat = true then s.pc else s.pc + 2) ∧ KeepsAllBut [.pc] s t) ∧
        (15 < (s.readV x).toNat →
          exec (.skp x) s = .fault (.badKeyIndex (wordXNN 0xE x 0x9E) (s.pc - 2)) ∧
            exec (.sknp x) s = .fault (.badKeyIndex (wordXNN 0xE x 0xA1) (s.pc - 2)))

/-- R202: LD_VX_K with no key held goes back to its own address and changes nothing else; with keys held it loads the least
key number. -/
def Obligations.LdVxKPollsOrLoads : Prop :=
  ∀ x : Reg, decodeWord (wordXNN 0xF x 0x0A) = .ldVxK x ∧
    ∀ s : State,
      (s.keys = 0 → ∃ t, exec (.ldVxK x) s = .next t ∧ t.pc = s.pc - 2 ∧ KeepsAllBut [.pc] s t) ∧
      (s.keys ≠ 0 → ∃ t, exec (.ldVxK x) s = .next t ∧ (t.readV x).toNat < 16 ∧
        s.keys.getLsbD (t.readV x).toNat = true ∧ (∀ k < (t.readV x).toNat, s.keys.getLsbD k = false) ∧
        KeepsRegsBut [x] s t ∧ KeepsAllBut [.v] s t)

/-- R203, R204, R205: VX gets DT; DT gets VX; ST gets VX, and snd_on is ST != 0 (the spec's decisions D17, D34). -/
def Obligations.TimerMoves : Prop :=
  ∀ x : Reg,
    decodeWord (wordXNN 0xF x 0x07) = .ldVxDt x ∧ decodeWord (wordXNN 0xF x 0x15) = .ldDtVx x ∧
      decodeWord (wordXNN 0xF x 0x18) = .ldStVx x ∧
      ∀ s : State,
        (∃ t, exec (.ldVxDt x) s = .next t ∧ t.readV x = s.dt ∧ KeepsRegsBut [x] s t ∧ KeepsAllBut [.v] s t) ∧
        (∃ t, exec (.ldDtVx x) s = .next t ∧ t.dt = s.readV x ∧ KeepsAllBut [.dt] s t) ∧
        ∃ t, exec (.ldStVx x) s = .next t ∧ t.st = s.readV x ∧ (t.sndOn = true ↔ s.readV x ≠ 0) ∧
          KeepsAllBut [.st] s t

/-- R206, R207: the unassigned words of categories E and F are always fatal, with their cause, word and address. -/
def Obligations.IllegalWordsAreFatal : Prop :=
  ∀ (x : Reg) (nn : Byte),
    (nn ∉ [0x9E, 0xA1] → decodeWord (wordXNN 0xE x nn) = .illE x nn) ∧
      (nn ∉ [0x07, 0x0A, 0x15, 0x18, 0x1E, 0x29, 0x33, 0x55, 0x65] → decodeWord (wordXNN 0xF x nn) = .illF x nn) ∧
      ∀ s : State,
        exec (.illE x nn) s = .fault (.unknownESub (wordXNN 0xE x nn) (s.pc - 2)) ∧
          exec (.illF x nn) s = .fault (.unknownFSub (wordXNN 0xF x nn) (s.pc - 2))
end

