-- ==== Sys2Proof/Laws/Decode.lean ====
section
/-! SUPPORT. The fields of a word put together from its fields (spec/30_encoding.md R91, R92). -/

namespace Sys2Proof

/-- A slice of the low part of a concatenation. -/
theorem extract_low {a b : Nat} (h : BitVec a) (l : BitVec b) (s n : Nat) (hs : s + n ≤ b) :
    (h ++ l).extractLsb' s n = l.extractLsb' s n := by
  apply BitVec.eq_of_getLsbD_eq
  intro i hi
  simp only [BitVec.getLsbD_extractLsb', BitVec.getLsbD_append, hi, decide_true, Bool.true_and]
  rw [if_pos (by omega)]

/-- A slice of the high part of a concatenation. -/
theorem extract_high {a b : Nat} (h : BitVec a) (l : BitVec b) (s n : Nat) (hs : b ≤ s) :
    (h ++ l).extractLsb' s n = h.extractLsb' (s - b) n := by
  apply BitVec.eq_of_getLsbD_eq
  intro i hi
  simp only [BitVec.getLsbD_extractLsb', BitVec.getLsbD_append, hi, decide_true, Bool.true_and]
  rw [if_neg (by omega)]
  congr 1
  omega

/-- The whole as a slice of itself. -/
theorem extract_all {a : Nat} (h : BitVec a) : h.extractLsb' 0 a = h := by
  apply BitVec.eq_of_getLsbD_eq
  intro i hi
  simp [hi]

section
variable (c n : Nibble) (x y : Reg) (nn : Byte) (nnn : Addr)

@[simp] theorem catOf_wordNNN : catOf (wordNNN c nnn) = c := by
  rw [catOf, wordNNN, extract_high _ _ _ _ (by omega), extract_all]

@[simp] theorem nnnOf_wordNNN : nnnOf (wordNNN c nnn) = nnn := by
  rw [nnnOf, wordNNN, extract_low _ _ _ _ (by omega), extract_all]

@[simp] theorem catOf_wordXNN : catOf (wordXNN c x nn) = c := by
  rw [catOf, wordXNN, extract_high _ _ _ _ (by omega), extract_high _ _ _ _ (by omega), extract_all]

@[simp] theorem xOf_wordXNN : xOf (wordXNN c x nn) = x := by
  rw [xOf, wordXNN, extract_high _ _ _ _ (by omega), extract_low _ _ _ _ (by omega), extract_all]

@[simp] theorem nnOf_wordXNN : nnOf (wordXNN c x nn) = nn := by
  rw [nnOf, wordXNN, extract_low _ _ _ _ (by omega), extract_all]

@[simp] theorem catOf_wordXYN : catOf (wordXYN c x y n) = c := by
  rw [catOf, wordXYN, extract_high _ _ _ _ (by omega), extract_high _ _ _ _ (by omega), extract_high _ _ _ _ (by omega),
    extract_all]

@[simp] theorem xOf_wordXYN : xOf (wordXYN c x y n) = x := by
  rw [xOf, wordXYN, extract_high _ _ _ _ (by omega), extract_high _ _ _ _ (by omega), extract_low _ _ _ _ (by omega),
    extract_all]

@[simp] theorem yOf_wordXYN : yOf (wordXYN c x y n) = y := by
  rw [yOf, wordXYN, extract_high _ _ _ _ (by omega), extract_low _ _ _ _ (by omega), extract_all]

@[simp] theorem nOf_wordXYN : nOf (wordXYN c x y n) = n := by
  rw [nOf, wordXYN, extract_low _ _ _ _ (by omega), extract_all]

end

/-- A word from its category and NNN (R91). -/
theorem wordNNN_fields (w : Word) : wordNNN (catOf w) (nnnOf w) = w := by
  apply BitVec.eq_of_getLsbD_eq
  intro i hi
  simp only [wordNNN, catOf, nnnOf, BitVec.getLsbD_append, BitVec.getLsbD_extractLsb']
  split
  · simp [*]
  · rw [show 12 + (i - 12) = i by omega]; simp; omega

/-- A word from its category, X and NN (R91). -/
theorem wordXNN_fields (w : Word) : wordXNN (catOf w) (xOf w) (nnOf w) = w := by
  apply BitVec.eq_of_getLsbD_eq
  intro i hi
  have hx : (BitVec.ofFin (xOf w) : Nibble) = w.extractLsb' 8 4 := rfl
  simp only [wordXNN, hx, catOf, nnOf, BitVec.getLsbD_append, BitVec.getLsbD_extractLsb']
  split
  · simp [*]
  · split
    · rw [show 8 + (i - 8) = i by omega]; simp; omega
    · rw [show 12 + (i - 8 - 4) = i by omega]; simp; omega

/-- A word from its four nibbles (R91). -/
theorem wordXYN_fields (w : Word) : wordXYN (catOf w) (xOf w) (yOf w) (nOf w) = w := by
  apply BitVec.eq_of_getLsbD_eq
  intro i hi
  have hx : (BitVec.ofFin (xOf w) : Nibble) = w.extractLsb' 8 4 := rfl
  have hy : (BitVec.ofFin (yOf w) : Nibble) = w.extractLsb' 4 4 := rfl
  simp only [wordXYN, hx, hy, catOf, nOf, BitVec.getLsbD_append, BitVec.getLsbD_extractLsb']
  split
  · simp [*]
  · split
    · rw [show 4 + (i - 4) = i by omega]; simp; omega
    · split
      · rw [show 8 + (i - 4 - 4) = i by omega]; simp; omega
      · rw [show 12 + (i - 4 - 4 - 4) = i by omega]; simp; omega

end Sys2Proof
end

