-- ==== Sys2Proof/Laws/State.lean ====
section
/-! SUPPORT. One lemma per field per named update, true by rfl, so that no later proof unfolds a record update. -/

namespace Sys2Proof.Machine

/-! ### State.setV -/

@[simp] theorem State.setV_v (s : State) (r : Reg) (b : Byte) : (s.setV r b).v = s.v.set r.val b := rfl
@[simp] theorem State.setV_index (s : State) (r : Reg) (b : Byte) : (s.setV r b).index = s.index := rfl
@[simp] theorem State.setV_pc (s : State) (r : Reg) (b : Byte) : (s.setV r b).pc = s.pc := rfl
@[simp] theorem State.setV_stack (s : State) (r : Reg) (b : Byte) : (s.setV r b).stack = s.stack := rfl
@[simp] theorem State.setV_dt (s : State) (r : Reg) (b : Byte) : (s.setV r b).dt = s.dt := rfl
@[simp] theorem State.setV_st (s : State) (r : Reg) (b : Byte) : (s.setV r b).st = s.st := rfl
@[simp] theorem State.setV_fb (s : State) (r : Reg) (b : Byte) : (s.setV r b).fb = s.fb := rfl
@[simp] theorem State.setV_mem (s : State) (r : Reg) (b : Byte) : (s.setV r b).mem = s.mem := rfl
@[simp] theorem State.setV_halt (s : State) (r : Reg) (b : Byte) : (s.setV r b).halt = s.halt := rfl
@[simp] theorem State.setV_inputs (s : State) (r : Reg) (b : Byte) : (s.setV r b).inputs = s.inputs := rfl
@[simp] theorem State.setV_drawn (s : State) (r : Reg) (b : Byte) : (s.setV r b).drawn = s.drawn := rfl
@[simp] theorem State.setV_sinceReset (s : State) (r : Reg) (b : Byte) : (s.setV r b).sinceReset = s.sinceReset := rfl
@[simp] theorem State.setV_input (s : State) (r : Reg) (b : Byte) : (s.setV r b).input = s.input := rfl
@[simp] theorem State.setV_inputAt (s : State) (r : Reg) (b : Byte) (k : Nat) :
    (s.setV r b).inputAt k = s.inputAt k := rfl
@[simp] theorem State.setV_base (s : State) (r : Reg) (b : Byte) : (s.setV r b).base = s.base := rfl
@[simp] theorem State.setV_sp (s : State) (r : Reg) (b : Byte) : (s.setV r b).sp = s.sp := rfl

/-! ### State.setPc -/

@[simp] theorem State.setPc_v (s : State) (t : Word) : (s.setPc t).v = s.v := rfl
@[simp] theorem State.setPc_index (s : State) (t : Word) : (s.setPc t).index = s.index := rfl
@[simp] theorem State.setPc_pc (s : State) (t : Word) : (s.setPc t).pc = t := rfl
@[simp] theorem State.setPc_stack (s : State) (t : Word) : (s.setPc t).stack = s.stack := rfl
@[simp] theorem State.setPc_dt (s : State) (t : Word) : (s.setPc t).dt = s.dt := rfl
@[simp] theorem State.setPc_st (s : State) (t : Word) : (s.setPc t).st = s.st := rfl
@[simp] theorem State.setPc_fb (s : State) (t : Word) : (s.setPc t).fb = s.fb := rfl
@[simp] theorem State.setPc_mem (s : State) (t : Word) : (s.setPc t).mem = s.mem := rfl
@[simp] theorem State.setPc_halt (s : State) (t : Word) : (s.setPc t).halt = s.halt := rfl
@[simp] theorem State.setPc_inputs (s : State) (t : Word) : (s.setPc t).inputs = s.inputs := rfl
@[simp] theorem State.setPc_drawn (s : State) (t : Word) : (s.setPc t).drawn = s.drawn := rfl
@[simp] theorem State.setPc_sinceReset (s : State) (t : Word) : (s.setPc t).sinceReset = s.sinceReset := rfl
@[simp] theorem State.setPc_readV (s : State) (t : Word) (q : Reg) : (s.setPc t).readV q = s.readV q := rfl
@[simp] theorem State.setPc_input (s : State) (t : Word) : (s.setPc t).input = s.input := rfl
@[simp] theorem State.setPc_inputAt (s : State) (t : Word) (k : Nat) : (s.setPc t).inputAt k = s.inputAt k := rfl
@[simp] theorem State.setPc_base (s : State) (t : Word) : (s.setPc t).base = s.base := rfl
@[simp] theorem State.setPc_sp (s : State) (t : Word) : (s.setPc t).sp = s.sp := rfl

/-! ### State.setIndex -/

@[simp] theorem State.setIndex_v (s : State) (a : Word) : (s.setIndex a).v = s.v := rfl
@[simp] theorem State.setIndex_index (s : State) (a : Word) : (s.setIndex a).index = a := rfl
@[simp] theorem State.setIndex_pc (s : State) (a : Word) : (s.setIndex a).pc = s.pc := rfl
@[simp] theorem State.setIndex_stack (s : State) (a : Word) : (s.setIndex a).stack = s.stack := rfl
@[simp] theorem State.setIndex_dt (s : State) (a : Word) : (s.setIndex a).dt = s.dt := rfl
@[simp] theorem State.setIndex_st (s : State) (a : Word) : (s.setIndex a).st = s.st := rfl
@[simp] theorem State.setIndex_fb (s : State) (a : Word) : (s.setIndex a).fb = s.fb := rfl
@[simp] theorem State.setIndex_mem (s : State) (a : Word) : (s.setIndex a).mem = s.mem := rfl
@[simp] theorem State.setIndex_halt (s : State) (a : Word) : (s.setIndex a).halt = s.halt := rfl
@[simp] theorem State.setIndex_inputs (s : State) (a : Word) : (s.setIndex a).inputs = s.inputs := rfl
@[simp] theorem State.setIndex_drawn (s : State) (a : Word) : (s.setIndex a).drawn = s.drawn := rfl
@[simp] theorem State.setIndex_sinceReset (s : State) (a : Word) : (s.setIndex a).sinceReset = s.sinceReset := rfl
@[simp] theorem State.setIndex_readV (s : State) (a : Word) (q : Reg) : (s.setIndex a).readV q = s.readV q := rfl
@[simp] theorem State.setIndex_input (s : State) (a : Word) : (s.setIndex a).input = s.input := rfl
@[simp] theorem State.setIndex_inputAt (s : State) (a : Word) (k : Nat) : (s.setIndex a).inputAt k = s.inputAt k := rfl
@[simp] theorem State.setIndex_sp (s : State) (a : Word) : (s.setIndex a).sp = s.sp := rfl

/-! ### State.setDt -/

@[simp] theorem State.setDt_v (s : State) (b : Byte) : (s.setDt b).v = s.v := rfl
@[simp] theorem State.setDt_index (s : State) (b : Byte) : (s.setDt b).index = s.index := rfl
@[simp] theorem State.setDt_pc (s : State) (b : Byte) : (s.setDt b).pc = s.pc := rfl
@[simp] theorem State.setDt_stack (s : State) (b : Byte) : (s.setDt b).stack = s.stack := rfl
@[simp] theorem State.setDt_dt (s : State) (b : Byte) : (s.setDt b).dt = b := rfl
@[simp] theorem State.setDt_st (s : State) (b : Byte) : (s.setDt b).st = s.st := rfl
@[simp] theorem State.setDt_fb (s : State) (b : Byte) : (s.setDt b).fb = s.fb := rfl
@[simp] theorem State.setDt_mem (s : State) (b : Byte) : (s.setDt b).mem = s.mem := rfl
@[simp] theorem State.setDt_halt (s : State) (b : Byte) : (s.setDt b).halt = s.halt := rfl
@[simp] theorem State.setDt_inputs (s : State) (b : Byte) : (s.setDt b).inputs = s.inputs := rfl
@[simp] theorem State.setDt_drawn (s : State) (b : Byte) : (s.setDt b).drawn = s.drawn := rfl
@[simp] theorem State.setDt_sinceReset (s : State) (b : Byte) : (s.setDt b).sinceReset = s.sinceReset := rfl
@[simp] theorem State.setDt_readV (s : State) (b : Byte) (q : Reg) : (s.setDt b).readV q = s.readV q := rfl
@[simp] theorem State.setDt_input (s : State) (b : Byte) : (s.setDt b).input = s.input := rfl
@[simp] theorem State.setDt_inputAt (s : State) (b : Byte) (k : Nat) : (s.setDt b).inputAt k = s.inputAt k := rfl
@[simp] theorem State.setDt_base (s : State) (b : Byte) : (s.setDt b).base = s.base := rfl
@[simp] theorem State.setDt_sp (s : State) (b : Byte) : (s.setDt b).sp = s.sp := rfl

/-! ### State.setSt -/

@[simp] theorem State.setSt_v (s : State) (b : Byte) : (s.setSt b).v = s.v := rfl
@[simp] theorem State.setSt_index (s : State) (b : Byte) : (s.setSt b).index = s.index := rfl
@[simp] theorem State.setSt_pc (s : State) (b : Byte) : (s.setSt b).pc = s.pc := rfl
@[simp] theorem State.setSt_stack (s : State) (b : Byte) : (s.setSt b).stack = s.stack := rfl
@[simp] theorem State.setSt_dt (s : State) (b : Byte) : (s.setSt b).dt = s.dt := rfl
@[simp] theorem State.setSt_st (s : State) (b : Byte) : (s.setSt b).st = b := rfl
@[simp] theorem State.setSt_fb (s : State) (b : Byte) : (s.setSt b).fb = s.fb := rfl
@[simp] theorem State.setSt_mem (s : State) (b : Byte) : (s.setSt b).mem = s.mem := rfl
@[simp] theorem State.setSt_halt (s : State) (b : Byte) : (s.setSt b).halt = s.halt := rfl
@[simp] theorem State.setSt_inputs (s : State) (b : Byte) : (s.setSt b).inputs = s.inputs := rfl
@[simp] theorem State.setSt_drawn (s : State) (b : Byte) : (s.setSt b).drawn = s.drawn := rfl
@[simp] theorem State.setSt_sinceReset (s : State) (b : Byte) : (s.setSt b).sinceReset = s.sinceReset := rfl
@[simp] theorem State.setSt_readV (s : State) (b : Byte) (q : Reg) : (s.setSt b).readV q = s.readV q := rfl
@[simp] theorem State.setSt_input (s : State) (b : Byte) : (s.setSt b).input = s.input := rfl
@[simp] theorem State.setSt_inputAt (s : State) (b : Byte) (k : Nat) : (s.setSt b).inputAt k = s.inputAt k := rfl
@[simp] theorem State.setSt_base (s : State) (b : Byte) : (s.setSt b).base = s.base := rfl
@[simp] theorem State.setSt_sp (s : State) (b : Byte) : (s.setSt b).sp = s.sp := rfl

/-! ### State.setFb -/

@[simp] theorem State.setFb_v (s : State) (d : BitVec 2048) : (s.setFb d).v = s.v := rfl
@[simp] theorem State.setFb_index (s : State) (d : BitVec 2048) : (s.setFb d).index = s.index := rfl
@[simp] theorem State.setFb_pc (s : State) (d : BitVec 2048) : (s.setFb d).pc = s.pc := rfl
@[simp] theorem State.setFb_stack (s : State) (d : BitVec 2048) : (s.setFb d).stack = s.stack := rfl
@[simp] theorem State.setFb_dt (s : State) (d : BitVec 2048) : (s.setFb d).dt = s.dt := rfl
@[simp] theorem State.setFb_st (s : State) (d : BitVec 2048) : (s.setFb d).st = s.st := rfl
@[simp] theorem State.setFb_fb (s : State) (d : BitVec 2048) : (s.setFb d).fb = d := rfl
@[simp] theorem State.setFb_mem (s : State) (d : BitVec 2048) : (s.setFb d).mem = s.mem := rfl
@[simp] theorem State.setFb_halt (s : State) (d : BitVec 2048) : (s.setFb d).halt = s.halt := rfl
@[simp] theorem State.setFb_inputs (s : State) (d : BitVec 2048) : (s.setFb d).inputs = s.inputs := rfl
@[simp] theorem State.setFb_drawn (s : State) (d : BitVec 2048) : (s.setFb d).drawn = s.drawn := rfl
@[simp] theorem State.setFb_sinceReset (s : State) (d : BitVec 2048) : (s.setFb d).sinceReset = s.sinceReset := rfl
@[simp] theorem State.setFb_readV (s : State) (d : BitVec 2048) (q : Reg) : (s.setFb d).readV q = s.readV q := rfl
@[simp] theorem State.setFb_input (s : State) (d : BitVec 2048) : (s.setFb d).input = s.input := rfl
@[simp] theorem State.setFb_inputAt (s : State) (d : BitVec 2048) (k : Nat) : (s.setFb d).inputAt k = s.inputAt k := rfl
@[simp] theorem State.setFb_base (s : State) (d : BitVec 2048) : (s.setFb d).base = s.base := rfl
@[simp] theorem State.setFb_sp (s : State) (d : BitVec 2048) : (s.setFb d).sp = s.sp := rfl

/-! ### State.setMem -/

@[simp] theorem State.setMem_v (s : State) (m : Memory) : (s.setMem m).v = s.v := rfl
@[simp] theorem State.setMem_index (s : State) (m : Memory) : (s.setMem m).index = s.index := rfl
@[simp] theorem State.setMem_pc (s : State) (m : Memory) : (s.setMem m).pc = s.pc := rfl
@[simp] theorem State.setMem_stack (s : State) (m : Memory) : (s.setMem m).stack = s.stack := rfl
@[simp] theorem State.setMem_dt (s : State) (m : Memory) : (s.setMem m).dt = s.dt := rfl
@[simp] theorem State.setMem_st (s : State) (m : Memory) : (s.setMem m).st = s.st := rfl
@[simp] theorem State.setMem_fb (s : State) (m : Memory) : (s.setMem m).fb = s.fb := rfl
@[simp] theorem State.setMem_mem (s : State) (m : Memory) : (s.setMem m).mem = m := rfl
@[simp] theorem State.setMem_halt (s : State) (m : Memory) : (s.setMem m).halt = s.halt := rfl
@[simp] theorem State.setMem_inputs (s : State) (m : Memory) : (s.setMem m).inputs = s.inputs := rfl
@[simp] theorem State.setMem_drawn (s : State) (m : Memory) : (s.setMem m).drawn = s.drawn := rfl
@[simp] theorem State.setMem_sinceReset (s : State) (m : Memory) : (s.setMem m).sinceReset = s.sinceReset := rfl
@[simp] theorem State.setMem_readV (s : State) (m : Memory) (q : Reg) : (s.setMem m).readV q = s.readV q := rfl
@[simp] theorem State.setMem_input (s : State) (m : Memory) : (s.setMem m).input = s.input := rfl
@[simp] theorem State.setMem_inputAt (s : State) (m : Memory) (k : Nat) : (s.setMem m).inputAt k = s.inputAt k := rfl
@[simp] theorem State.setMem_base (s : State) (m : Memory) : (s.setMem m).base = s.base := rfl
@[simp] theorem State.setMem_sp (s : State) (m : Memory) : (s.setMem m).sp = s.sp := rfl

/-! ### State.setStack -/

@[simp] theorem State.setStack_v (s : State) (l : List Word) : (s.setStack l).v = s.v := rfl
@[simp] theorem State.setStack_index (s : State) (l : List Word) : (s.setStack l).index = s.index := rfl
@[simp] theorem State.setStack_pc (s : State) (l : List Word) : (s.setStack l).pc = s.pc := rfl
@[simp] theorem State.setStack_stack (s : State) (l : List Word) : (s.setStack l).stack = l := rfl
@[simp] theorem State.setStack_dt (s : State) (l : List Word) : (s.setStack l).dt = s.dt := rfl
@[simp] theorem State.setStack_st (s : State) (l : List Word) : (s.setStack l).st = s.st := rfl
@[simp] theorem State.setStack_fb (s : State) (l : List Word) : (s.setStack l).fb = s.fb := rfl
@[simp] theorem State.setStack_mem (s : State) (l : List Word) : (s.setStack l).mem = s.mem := rfl
@[simp] theorem State.setStack_halt (s : State) (l : List Word) : (s.setStack l).halt = s.halt := rfl
@[simp] theorem State.setStack_inputs (s : State) (l : List Word) : (s.setStack l).inputs = s.inputs := rfl
@[simp] theorem State.setStack_drawn (s : State) (l : List Word) : (s.setStack l).drawn = s.drawn := rfl
@[simp] theorem State.setStack_sinceReset (s : State) (l : List Word) : (s.setStack l).sinceReset = s.sinceReset := rfl
@[simp] theorem State.setStack_readV (s : State) (l : List Word) (q : Reg) : (s.setStack l).readV q = s.readV q := rfl
@[simp] theorem State.setStack_input (s : State) (l : List Word) : (s.setStack l).input = s.input := rfl
@[simp] theorem State.setStack_inputAt (s : State) (l : List Word) (k : Nat) :
    (s.setStack l).inputAt k = s.inputAt k := rfl
@[simp] theorem State.setStack_base (s : State) (l : List Word) : (s.setStack l).base = s.base := rfl

/-! ### State.advance -/

@[simp] theorem State.advance_v (s : State) : (s.advance).v = s.v := rfl
@[simp] theorem State.advance_index (s : State) : (s.advance).index = s.index := rfl
@[simp] theorem State.advance_pc (s : State) : (s.advance).pc = s.pc + 2 := rfl
@[simp] theorem State.advance_stack (s : State) : (s.advance).stack = s.stack := rfl
@[simp] theorem State.advance_dt (s : State) : (s.advance).dt = s.dt := rfl
@[simp] theorem State.advance_st (s : State) : (s.advance).st = s.st := rfl
@[simp] theorem State.advance_fb (s : State) : (s.advance).fb = s.fb := rfl
@[simp] theorem State.advance_mem (s : State) : (s.advance).mem = s.mem := rfl
@[simp] theorem State.advance_halt (s : State) : (s.advance).halt = s.halt := rfl
@[simp] theorem State.advance_inputs (s : State) : (s.advance).inputs = s.inputs := rfl
@[simp] theorem State.advance_drawn (s : State) : (s.advance).drawn = s.drawn := rfl
@[simp] theorem State.advance_sinceReset (s : State) : (s.advance).sinceReset = s.sinceReset := rfl
@[simp] theorem State.advance_readV (s : State) (q : Reg) : (s.advance).readV q = s.readV q := rfl
@[simp] theorem State.advance_input (s : State) : (s.advance).input = s.input := rfl
@[simp] theorem State.advance_inputAt (s : State) (k : Nat) : (s.advance).inputAt k = s.inputAt k := rfl
@[simp] theorem State.advance_base (s : State) : (s.advance).base = s.base := rfl
@[simp] theorem State.advance_sp (s : State) : (s.advance).sp = s.sp := rfl

/-! ### State.tick -/

@[simp] theorem State.tick_v (s : State) : (s.tick).v = s.v := rfl
@[simp] theorem State.tick_index (s : State) : (s.tick).index = s.index := rfl
@[simp] theorem State.tick_pc (s : State) : (s.tick).pc = s.pc := rfl
@[simp] theorem State.tick_stack (s : State) : (s.tick).stack = s.stack := rfl
@[simp] theorem State.tick_dt (s : State) : (s.tick).dt = decTimer s.dt := rfl
@[simp] theorem State.tick_st (s : State) : (s.tick).st = decTimer s.st := rfl
@[simp] theorem State.tick_fb (s : State) : (s.tick).fb = s.fb := rfl
@[simp] theorem State.tick_mem (s : State) : (s.tick).mem = s.mem := rfl
@[simp] theorem State.tick_halt (s : State) : (s.tick).halt = s.halt := rfl
@[simp] theorem State.tick_inputs (s : State) : (s.tick).inputs = s.inputs := rfl
@[simp] theorem State.tick_drawn (s : State) : (s.tick).drawn = s.drawn := rfl
@[simp] theorem State.tick_sinceReset (s : State) : (s.tick).sinceReset = s.sinceReset := rfl
@[simp] theorem State.tick_readV (s : State) (q : Reg) : (s.tick).readV q = s.readV q := rfl
@[simp] theorem State.tick_input (s : State) : (s.tick).input = s.input := rfl
@[simp] theorem State.tick_inputAt (s : State) (k : Nat) : (s.tick).inputAt k = s.inputAt k := rfl
@[simp] theorem State.tick_base (s : State) : (s.tick).base = s.base := rfl
@[simp] theorem State.tick_sp (s : State) : (s.tick).sp = s.sp := rfl

/-! ### State.ticks -/

@[simp] theorem State.ticks_v (s : State) (n : Nat) : (s.ticks n).v = s.v := rfl
@[simp] theorem State.ticks_index (s : State) (n : Nat) : (s.ticks n).index = s.index := rfl
@[simp] theorem State.ticks_pc (s : State) (n : Nat) : (s.ticks n).pc = s.pc := rfl
@[simp] theorem State.ticks_stack (s : State) (n : Nat) : (s.ticks n).stack = s.stack := rfl
@[simp] theorem State.ticks_dt (s : State) (n : Nat) : (s.ticks n).dt = timerAfter s.dt n := rfl
@[simp] theorem State.ticks_st (s : State) (n : Nat) : (s.ticks n).st = timerAfter s.st n := rfl
@[simp] theorem State.ticks_fb (s : State) (n : Nat) : (s.ticks n).fb = s.fb := rfl
@[simp] theorem State.ticks_mem (s : State) (n : Nat) : (s.ticks n).mem = s.mem := rfl
@[simp] theorem State.ticks_halt (s : State) (n : Nat) : (s.ticks n).halt = s.halt := rfl
@[simp] theorem State.ticks_inputs (s : State) (n : Nat) : (s.ticks n).inputs = s.inputs := rfl
@[simp] theorem State.ticks_drawn (s : State) (n : Nat) : (s.ticks n).drawn = s.drawn := rfl
@[simp] theorem State.ticks_sinceReset (s : State) (n : Nat) : (s.ticks n).sinceReset = s.sinceReset := rfl
@[simp] theorem State.ticks_readV (s : State) (n : Nat) (q : Reg) : (s.ticks n).readV q = s.readV q := rfl
@[simp] theorem State.ticks_input (s : State) (n : Nat) : (s.ticks n).input = s.input := rfl
@[simp] theorem State.ticks_inputAt (s : State) (n : Nat) (k : Nat) : (s.ticks n).inputAt k = s.inputAt k := rfl
@[simp] theorem State.ticks_base (s : State) (n : Nat) : (s.ticks n).base = s.base := rfl
@[simp] theorem State.ticks_sp (s : State) (n : Nat) : (s.ticks n).sp = s.sp := rfl

/-! ### State.nextInputs -/

@[simp] theorem State.nextInputs_v (s : State) : (s.nextInputs).v = s.v := rfl
@[simp] theorem State.nextInputs_index (s : State) : (s.nextInputs).index = s.index := rfl
@[simp] theorem State.nextInputs_pc (s : State) : (s.nextInputs).pc = s.pc := rfl
@[simp] theorem State.nextInputs_stack (s : State) : (s.nextInputs).stack = s.stack := rfl
@[simp] theorem State.nextInputs_dt (s : State) : (s.nextInputs).dt = s.dt := rfl
@[simp] theorem State.nextInputs_st (s : State) : (s.nextInputs).st = s.st := rfl
@[simp] theorem State.nextInputs_fb (s : State) : (s.nextInputs).fb = s.fb := rfl
@[simp] theorem State.nextInputs_mem (s : State) : (s.nextInputs).mem = s.mem := rfl
@[simp] theorem State.nextInputs_halt (s : State) : (s.nextInputs).halt = s.halt := rfl
@[simp] theorem State.nextInputs_inputs (s : State) : (s.nextInputs).inputs = s.inputs.tail := rfl
@[simp] theorem State.nextInputs_drawn (s : State) : (s.nextInputs).drawn = s.drawn + 1 := rfl
@[simp] theorem State.nextInputs_sinceReset (s : State) : (s.nextInputs).sinceReset = s.sinceReset + 1 := rfl
@[simp] theorem State.nextInputs_readV (s : State) (q : Reg) : (s.nextInputs).readV q = s.readV q := rfl
@[simp] theorem State.nextInputs_base (s : State) : (s.nextInputs).base = s.base := rfl
@[simp] theorem State.nextInputs_sp (s : State) : (s.nextInputs).sp = s.sp := rfl

/-! ### State.boundary -/

@[simp] theorem State.boundary_v (s : State) : (s.boundary).v = s.v := rfl
@[simp] theorem State.boundary_index (s : State) : (s.boundary).index = s.index := rfl
@[simp] theorem State.boundary_pc (s : State) : (s.boundary).pc = s.pc := rfl
@[simp] theorem State.boundary_stack (s : State) : (s.boundary).stack = s.stack := rfl
@[simp] theorem State.boundary_dt (s : State) : (s.boundary).dt = timerAfter s.dt s.input.ticks := rfl
@[simp] theorem State.boundary_st (s : State) : (s.boundary).st = timerAfter s.st s.input.ticks := rfl
@[simp] theorem State.boundary_fb (s : State) : (s.boundary).fb = s.fb := rfl
@[simp] theorem State.boundary_mem (s : State) : (s.boundary).mem = s.mem := rfl
@[simp] theorem State.boundary_halt (s : State) : (s.boundary).halt = s.halt := rfl
@[simp] theorem State.boundary_inputs (s : State) : (s.boundary).inputs = s.inputs.tail := rfl
@[simp] theorem State.boundary_drawn (s : State) : (s.boundary).drawn = s.drawn + 1 := rfl
@[simp] theorem State.boundary_sinceReset (s : State) : (s.boundary).sinceReset = s.sinceReset + 1 := rfl
@[simp] theorem State.boundary_readV (s : State) (q : Reg) : (s.boundary).readV q = s.readV q := rfl
@[simp] theorem State.boundary_base (s : State) : (s.boundary).base = s.base := rfl
@[simp] theorem State.boundary_sp (s : State) : (s.boundary).sp = s.sp := rfl

/-! ### The inputs of the coming steps -/

/-- Once a step's inputs are spent, the input that was number k + 1 is number k (log entry 1). -/
@[simp] theorem State.nextInputs_inputAt (s : State) (k : Nat) : s.nextInputs.inputAt k = s.inputAt (k + 1) := by
  simp only [State.inputAt, State.nextInputs_inputs, State.nextInputs_drawn, List.getElem?_tail]
  rw [show s.drawn + 1 + k = s.drawn + (k + 1) by omega]

@[simp] theorem State.boundary_inputAt (s : State) (k : Nat) : s.boundary.inputAt k = s.inputAt (k + 1) :=
  State.nextInputs_inputAt _ k

/-- The coming inputs depend on the settled inputs and the count of steps alone. -/
theorem State.inputAt_congr {s t : State} (hi : t.inputs = s.inputs) (hd : t.drawn = s.drawn) (k : Nat) :
    t.inputAt k = s.inputAt k := by
  rw [State.inputAt, State.inputAt, hi, hd]

/-! ### Reading a register after writing one -/

/-- A V register after a write to one: the written byte there, the old bytes elsewhere (spec/10_state.md R20). -/
@[simp] theorem State.readV_setV (s : State) (r q : Reg) (b : Byte) :
    (s.setV r b).readV q = if q = r then b else s.readV q := by
  simp only [State.readV, State.setV_v, Vector.getElem_set, Fin.ext_iff]
  split <;> split <;> first | rfl | omega

@[simp] theorem State.setFb_pixel (s : State) (d : BitVec 2048) (k : Nat) : (s.setFb d).pixel k = d.getLsbD k := rfl

@[simp] theorem State.setV_pixel (s : State) (r : Reg) (b : Byte) (k : Nat) : (s.setV r b).pixel k = s.pixel k := rfl

/-- Two states with the same fields, the V registers compared one by one, are the same state. -/
theorem State.ext_of_fields {s t : State} (hv : ∀ r, t.readV r = s.readV r) (hi : t.index = s.index) (hp : t.pc = s.pc)
    (hk : t.stack = s.stack) (hd : t.dt = s.dt) (hs : t.st = s.st) (hf : t.fb = s.fb) (hm : t.mem = s.mem)
    (hh : t.halt = s.halt) (hin : t.inputs = s.inputs) (hn : t.drawn = s.drawn)
    (hr : t.sinceReset = s.sinceReset) : t = s := by
  obtain ⟨v, _, _, _, _, _, _, _, _, _, _, _⟩ := s
  obtain ⟨v', _, _, _, _, _, _, _, _, _, _, _⟩ := t
  have : v' = v := Vector.ext fun k hk => hv ⟨k, hk⟩
  simp_all

end Sys2Proof.Machine
end

