-- ==== Sys2Proof/Laws/Memory.lean ====
section
/-! SUPPORT. The laws of memory: a read after a write, and the canonical form that every write keeps. -/

namespace Sys2Proof.Machine

theorem Memory.read_erase (m : Memory) (a b : Nat) :
    Memory.read (m.erase a) b = if b = a then Memory.initial a else Memory.read m b := by
  induction m with
  | nil => simp only [Memory.erase, List.filter_nil, Memory.read]; split <;> simp_all
  | cons cell rest ih =>
    obtain ⟨k, c⟩ := cell
    by_cases hk : k = a
    · subst hk
      have : Memory.erase ((k, c) :: rest) k = Memory.erase rest k := by simp [Memory.erase]
      rw [this, ih]
      by_cases hb : b = k
      · simp [hb]
      · simp [hb, Memory.read, Ne.symm hb]
    · have : Memory.erase ((k, c) :: rest) a = (k, c) :: Memory.erase rest a := by simp [Memory.erase, hk]
      rw [this]
      by_cases hb : k = b
      · simp [Memory.read, hb, show b ≠ a from hb ▸ hk]
      · simp [Memory.read, hb, ih]

theorem Memory.read_insert (m : Memory) (a b : Nat) (c : Byte)
    (hm : ∀ cell ∈ m, cell.1 ≠ a) : Memory.read (m.insert a c) b = if b = a then c else Memory.read m b := by
  induction m with
  | nil => simp only [Memory.insert, Memory.read, eq_comm (a := a)]
  | cons cell rest ih =>
    obtain ⟨k, d⟩ := cell
    have hka : k ≠ a := hm (k, d) (by simp)
    have ih := ih fun cell hc => hm cell (by simp [hc])
    simp only [Memory.insert]
    split
    · simp only [Memory.read, eq_comm (a := a)]
    · simp only [Memory.read, ih]
      by_cases hb : k = b
      · simp [hb, show b ≠ a from hb ▸ hka]
      · simp [hb]

/-- A byte of memory after a store: the stored byte at its address, the old bytes elsewhere (spec/20_memory.md R75). It
holds of every list, canonical or not. -/
@[simp] theorem Memory.read_write (m : Memory) (a b : Nat) (c : Byte) :
    Memory.read (m.write a c) b = if b = a then c else Memory.read m b := by
  unfold Memory.write
  split
  · rw [Memory.read_erase]; simp_all
  · rw [Memory.read_insert _ _ _ _ (by simp [Memory.erase]), Memory.read_erase]
    split <;> simp_all

theorem Memory.wfFrom_mono {m : Memory} {lo hi : Nat} (h : lo ≤ hi) (hm : Memory.wfFrom hi m = true) :
    Memory.wfFrom lo m = true := by
  cases m with
  | nil => rfl
  | cons cell rest =>
    obtain ⟨k, c⟩ := cell
    simp only [Memory.wfFrom, Bool.and_eq_true, decide_eq_true_eq] at hm ⊢
    exact ⟨⟨⟨le_trans h hm.1.1.1, hm.1.1.2⟩, hm.1.2⟩, hm.2⟩

theorem Memory.wfFrom_erase {m : Memory} {lo : Nat} (a : Nat) (hm : Memory.wfFrom lo m = true) :
    Memory.wfFrom lo (m.erase a) = true := by
  induction m generalizing lo with
  | nil => rfl
  | cons cell rest ih =>
    obtain ⟨k, c⟩ := cell
    simp only [Memory.wfFrom, Bool.and_eq_true, decide_eq_true_eq] at hm
    by_cases hk : k = a
    · have : Memory.erase ((k, c) :: rest) a = Memory.erase rest a := by simp [Memory.erase, hk]
      rw [this]
      exact Memory.wfFrom_mono (by omega) (ih hm.2)
    · have : Memory.erase ((k, c) :: rest) a = (k, c) :: Memory.erase rest a := by simp [Memory.erase, hk]
      rw [this]
      simp [Memory.wfFrom, hm.1.1.1, hm.1.1.2, hm.1.2, ih hm.2]

theorem Memory.wfFrom_insert {m : Memory} {lo a : Nat} {c : Byte} (hlo : lo ≤ a) (ha : a < Config.memSize)
    (hc : c ≠ Memory.initial a) (hne : ∀ cell ∈ m, cell.1 ≠ a) (hm : Memory.wfFrom lo m = true) :
    Memory.wfFrom lo (m.insert a c) = true := by
  induction m generalizing lo with
  | nil => simp [Memory.insert, Memory.wfFrom, hlo, ha, hc]
  | cons cell rest ih =>
    obtain ⟨k, d⟩ := cell
    simp only [Memory.wfFrom, Bool.and_eq_true, decide_eq_true_eq] at hm
    have hka : k ≠ a := hne (k, d) (by simp)
    simp only [Memory.insert]
    split
    · rename_i hlt
      simp [Memory.wfFrom, hlo, ha, hc, hm.1.1.2, hm.1.2, hm.2, Nat.succ_le_of_lt hlt]
    · rename_i hge
      simp [Memory.wfFrom, hm.1.1.1, hm.1.1.2, hm.1.2,
        ih (lo := k + 1) (by omega) (fun cell h => hne cell (by simp [h])) hm.2]

/-- A store below 4096 keeps the canonical form. -/
theorem Memory.wf_write {m : Memory} {a : Nat} {c : Byte} (ha : a < Config.memSize) (hm : m.wf = true) :
    (m.write a c).wf = true := by
  unfold Memory.write
  split
  · exact Memory.wfFrom_erase a hm
  · rename_i hc
    exact Memory.wfFrom_insert (Nat.zero_le _) ha hc (by simp [Memory.erase]) (Memory.wfFrom_erase a hm)

/-- Seeding bytes that end below 4096 keeps the canonical form. -/
theorem Memory.wf_seed {m : Memory} {a : Nat} {bs : List Byte} (ha : a + bs.length ≤ Config.memSize) (hm : m.wf = true) :
    (m.seed a bs).wf = true := by
  induction bs generalizing m a with
  | nil => exact hm
  | cons b bs ih =>
    simp only [List.length_cons] at ha
    exact ih (by omega) (Memory.wf_write (by omega) hm)

/-- A byte of memory after bytes are seeded: the seeded byte inside their range, the old bytes elsewhere. -/
theorem Memory.read_seed (m : Memory) (a b : Nat) (bs : List Byte) :
    Memory.read (m.seed a bs) b = if a ≤ b ∧ b < a + bs.length then bs.getD (b - a) 0 else Memory.read m b := by
  induction bs generalizing m a with
  | nil => simp only [Memory.seed, List.length_nil]; rw [if_neg (by omega)]
  | cons c bs ih =>
    rw [Memory.seed, ih, Memory.read_write]
    by_cases h : b = a
    · subst h; simp
    · by_cases h2 : a + 1 ≤ b ∧ b < a + 1 + bs.length
      · rw [if_pos h2, if_pos (by simp only [List.length_cons]; omega)]
        obtain ⟨d, rfl⟩ : ∃ d, b = a + 1 + d := ⟨b - (a + 1), by omega⟩
        simp [show a + 1 + d - a = d + 1 by omega]
      · rw [if_neg h2, if_neg h, if_neg (by simp only [List.length_cons]; omega)]

end Sys2Proof.Machine
end

