-- ==== Sys2Proof/Laws/Ops.lean ====
section
/-! SUPPORT. What each named operation can do, said once: callers cite these and do not unfold the operation. -/

namespace Sys2Proof.Machine

/-! ### Bounds-checked access -/

/-- A read of n bytes succeeds exactly below 4096 and gives them in ascending order (spec/20_memory.md R69, R72). -/
theorem State.readBytes_eq (s : State) (a n : Nat) :
    s.readBytes a n =
      if n = 0 ∨ a + n ≤ 4096 then some ((List.range n).map fun k => s.mem.read (a + k)) else none := by
  induction n generalizing a with
  | zero => simp [State.readBytes]
  | succ n ih =>
    rw [State.readBytes, State.readByte, ih]
    simp only [Config.memSize]
    by_cases h : a + (n + 1) ≤ 4096
    · rw [if_pos (by omega), if_pos (by omega), if_pos (by omega), List.range_succ_eq_map]
      simp [Nat.add_comm, Nat.add_left_comm, Function.comp_def]
    · rw [if_neg (c := n + 1 = 0 ∨ a + (n + 1) ≤ 4096) (by omega)]
      by_cases ha : a < 4096
      · rw [if_pos ha, if_neg (by omega)]
      · rw [if_neg ha]

/-- A store of bytes succeeds exactly below 4096 and seeds them in ascending order (spec/20_memory.md R70, R72). -/
theorem State.writeBytes_eq (s : State) (a : Nat) (bs : List Byte) :
    s.writeBytes a bs =
      if bs = [] ∨ a + bs.length ≤ 4096 then some (s.setMem (s.mem.seed a bs)) else none := by
  induction bs generalizing s a with
  | nil => simp [State.writeBytes, Memory.seed, State.setMem]
  | cons b bs ih =>
    rw [State.writeBytes, State.writeByte]
    by_cases ha : a < 4096
    · rw [if_pos ha]
      simp only [ih, List.length_cons, reduceCtorEq, false_or, State.setMem_mem, Memory.seed]
      by_cases h : a + (bs.length + 1) ≤ 4096
      · rw [if_pos (Or.inr (by omega)), if_pos h]; rfl
      · rw [if_neg h, if_neg]
        rintro (rfl | h') <;> simp at * <;> omega
    · rw [if_neg ha, if_neg (by simp only [List.length_cons, reduceCtorEq, false_or]; omega)]

/-- The fetch reads the bytes at pc and pc + 1, the first one high, and fails above 4095 (spec/70_reset_and_hazards.md
R255). -/
theorem State.fetch_eq (s : State) :
    s.fetch =
      if s.pc.toNat + 1 ≤ 4095 then some (wordOfBytes (s.mem.read s.pc.toNat) (s.mem.read (s.pc.toNat + 1)))
      else none := by
  rw [State.fetch, State.readBytes_eq]
  by_cases h : s.pc.toNat + 1 ≤ 4095
  · rw [if_pos (by omega), if_pos h]; simp [List.range_succ]
  · rw [if_neg (by omega), if_neg h]

/-- What a read gives depends on the memory alone. -/
theorem State.readBytes_congr {s t : State} (h : t.mem = s.mem) (a n : Nat) : t.readBytes a n = s.readBytes a n := by
  rw [State.readBytes_eq, State.readBytes_eq, h]

/-! ### The call stack -/

/-- sp is the number of live return addresses (spec/10_state.md R32). -/
theorem State.sp_eq (s : State) : s.sp = s.stack.length := rfl

theorem stackFull_iff (depth : Option Nat) (sp : Nat) : stackFull depth sp = true ↔ ∃ d ∈ depth, d ≤ sp := by
  cases depth <;> simp [stackFull]

/-- A push appends its value unless the stack is full (spec/10_state.md R33). -/
theorem State.push_eq_some {s t : State} {depth : Option Nat} {v : Word} :
    s.push depth v = some t ↔ stackFull depth s.sp = false ∧ t = s.setStack (s.stack ++ [v]) := by
  unfold State.push
  by_cases h : stackFull depth s.sp = true
  · simp [h]
  · rw [if_neg h, Option.some.injEq]
    exact ⟨fun h' => ⟨by simpa using h, h'.symm⟩, fun h' => h'.2.symm⟩

/-- A push fails exactly on a full stack (spec/10_state.md R33). -/
theorem State.push_eq_none {s : State} {depth : Option Nat} {v : Word} :
    s.push depth v = none ↔ stackFull depth s.sp = true := by
  unfold State.push
  split <;> simp_all

/-- A pop gives the last entry and removes it (spec/10_state.md R34). -/
theorem State.pop_eq_some {s t : State} {v : Word} :
    s.pop = some (v, t) ↔ ∃ l, s.stack = l ++ [v] ∧ t = s.setStack l := by
  unfold State.pop
  rcases hl : s.stack.getLast? with _ | a
  · rw [List.getLast?_eq_none_iff] at hl
    simp [hl]
  · obtain ⟨l, hl⟩ := List.getLast?_eq_some_iff.mp hl
    simp only [hl, List.dropLast_concat, Option.some.injEq, Prod.mk.injEq]
    constructor
    · rintro ⟨rfl, rfl⟩; exact ⟨l, rfl, rfl⟩
    · rintro ⟨l', h, rfl⟩
      obtain ⟨rfl, h3⟩ := List.append_inj' h rfl
      exact ⟨by simpa using h3, rfl⟩

/-- A pop fails exactly on the empty stack (spec/10_state.md R34). -/
theorem State.pop_eq_none {s : State} : s.pop = none ↔ s.stack = [] := by
  unfold State.pop
  rcases hl : s.stack.getLast? with _ | a
  · simpa using hl
  · obtain ⟨l, hl⟩ := List.getLast?_eq_some_iff.mp hl
    simp [hl]

/-! ### Faults -/

@[simp] theorem raiseFatal_ne_next (c : Word → Word → Fault) (i : Instr) (s t : State) : raiseFatal c i s ≠ .next t :=
  nofun

/-- An access ends in a next state exactly if it succeeded. -/
@[simp] theorem orOutOfBounds_eq_next {i : Instr} {s t : State} {o : Option State} :
    orOutOfBounds i s o = .next t ↔ o = some t := by
  cases o <;> simp [orOutOfBounds]

/-! ### Timers -/

@[simp] theorem timerAfter_zero (b : Byte) : timerAfter b 0 = b := by
  unfold timerAfter; split <;> simp_all

/-- One more tick: `timerAfter` is `decTimer` repeated (spec/70_reset_and_hazards.md R258). -/
theorem timerAfter_succ (b : Byte) (n : Nat) : timerAfter b (n + 1) = decTimer (timerAfter b n) := by
  have hb := b.isLt
  unfold timerAfter decTimer
  by_cases h : b = 0
  · simp [h]
  · have h0 : b.toNat ≠ 0 := fun h' => h (by apply BitVec.eq_of_toNat_eq; simpa using h')
    rw [if_neg h, if_neg h]
    split
    · rename_i hz
      have := congrArg BitVec.toNat hz
      simp only [BitVec.toNat_ofNat] at this
      apply BitVec.eq_of_toNat_eq
      simp at this ⊢
      omega
    · rename_i hz
      have hz' : b.toNat - n ≠ 0 := fun h' => hz (by rw [h']; rfl)
      apply BitVec.eq_of_toNat_eq
      simp only [BitVec.toNat_ofNat, BitVec.toNat_sub]
      simp
      omega

@[simp] theorem State.ticks_zero (s : State) : s.ticks 0 = s := by
  simp [State.ticks]

@[simp] theorem State.ticks_one (s : State) : s.ticks 1 = s.tick := by
  rw [State.ticks, State.tick, timerAfter_succ, timerAfter_succ, timerAfter_zero, timerAfter_zero]

/-- One more tick is one more `tick` event (spec/70_reset_and_hazards.md R258). -/
theorem State.ticks_succ (s : State) (n : Nat) : s.ticks (n + 1) = (s.ticks n).tick := by
  simp [State.ticks, State.tick, timerAfter_succ]

/-! ### The step -/

@[simp] theorem endStep_eq_next {r : Result} {t' : State} : endStep r = .next t' ↔ ∃ t, r = .next t ∧ t' = t.boundary := by
  cases r <;> simp [endStep, eq_comm]

@[simp] theorem endStep_eq_fault {r : Result} {f : Fault} : endStep r = .fault f ↔ r = .fault f := by
  cases r <;> simp [endStep]

/-- A step ends in a next state exactly if the core runs, the fetch succeeds and the instruction ends in one; the boundary
follows (spec/70_reset_and_hazards.md R254). -/
theorem step_eq_next {s s' : State} :
    step s = .next s' ↔ s.halt.halted = false ∧
      ∃ w t, s.fetch = some w ∧ exec (decodeWord w) s.advance = .next t ∧ s' = t.boundary := by
  unfold step runStep
  by_cases h : s.halt.halted = true
  · simp [h]
  · rw [if_neg h]
    cases s.fetch <;> simp_all

end Sys2Proof.Machine
end

