-- ==== Sys2Proof/Laws/Operands.lean ====
section
/-! SUPPORT. The laws of the operand forms and of the result with its flag. -/

namespace Sys2Proof.Machine

@[simp] theorem addrOperand_toNat (nnn : Addr) : (addrOperand nnn).toNat = nnn.toNat := by
  have := nnn.isLt
  simp [addrOperand]; omega

@[simp] theorem byteOperand_toNat (b : Byte) : (byteOperand b).toNat = b.toNat := by
  have := b.isLt
  simp [byteOperand]; omega

/-- A skip writes pc alone (spec/40_control_flow.md R124). -/
theorem State.skipIf_eq (s : State) (c : Bool) : s.skipIf c = s.setPc (if c then s.pc + 2 else s.pc) := rfl

/-- A V register after a result and its flag: VF holds the flag whatever the destination (spec/41_alu.md R142). -/
theorem State.readV_setResultAndFlag (s : State) (d q : Reg) (b : Byte) (c : Bool) :
    (s.setResultAndFlag d b c).readV q = if q = VF then flagByte c else if q = d then b else s.readV q := by
  simp [State.setResultAndFlag]

@[simp] theorem State.registersUpTo_length (s : State) (x : Reg) : (s.registersUpTo x).length = x.val + 1 := by
  simp only [State.registersUpTo, List.length_take, Vector.length_toList]
  omega

/-- Entry k of V0 to VX is Vk (spec/42_index_memory.md R174). -/
theorem State.registersUpTo_getElem? (s : State) (x : Reg) (k : Reg) (h : k ≤ x) :
    (s.registersUpTo x)[k.val]? = some (s.readV k) := by
  have hk : k.val < x.val + 1 := Nat.lt_succ_of_le h
  have h16 := k.isLt
  rw [State.registersUpTo, List.getElem?_take_of_lt hk]
  simp [State.readV]

@[simp] theorem decimalDigits_length (b : Byte) : (decimalDigits b).length = 3 := rfl

@[simp] theorem State.setRegistersFrom_index (s : State) (k : Nat) (bs : List Byte) :
    (s.setRegistersFrom k bs).index = s.index := rfl
@[simp] theorem State.setRegistersFrom_pc (s : State) (k : Nat) (bs : List Byte) :
    (s.setRegistersFrom k bs).pc = s.pc := rfl
@[simp] theorem State.setRegistersFrom_stack (s : State) (k : Nat) (bs : List Byte) :
    (s.setRegistersFrom k bs).stack = s.stack := rfl
@[simp] theorem State.setRegistersFrom_dt (s : State) (k : Nat) (bs : List Byte) :
    (s.setRegistersFrom k bs).dt = s.dt := rfl
@[simp] theorem State.setRegistersFrom_st (s : State) (k : Nat) (bs : List Byte) :
    (s.setRegistersFrom k bs).st = s.st := rfl
@[simp] theorem State.setRegistersFrom_fb (s : State) (k : Nat) (bs : List Byte) :
    (s.setRegistersFrom k bs).fb = s.fb := rfl
@[simp] theorem State.setRegistersFrom_mem (s : State) (k : Nat) (bs : List Byte) :
    (s.setRegistersFrom k bs).mem = s.mem := rfl
@[simp] theorem State.setRegistersFrom_halt (s : State) (k : Nat) (bs : List Byte) :
    (s.setRegistersFrom k bs).halt = s.halt := rfl
@[simp] theorem State.setRegistersFrom_inputs (s : State) (k : Nat) (bs : List Byte) :
    (s.setRegistersFrom k bs).inputs = s.inputs := rfl
@[simp] theorem State.setRegistersFrom_drawn (s : State) (k : Nat) (bs : List Byte) :
    (s.setRegistersFrom k bs).drawn = s.drawn := rfl
@[simp] theorem State.setRegistersFrom_sinceReset (s : State) (k : Nat) (bs : List Byte) :
    (s.setRegistersFrom k bs).sinceReset = s.sinceReset := rfl

/-- Register q of a block write (spec/42_index_memory.md R175). -/
theorem setBlock_getElem (v : Vector Byte 16) (k : Nat) (bs : List Byte) (q : Reg) (h : k + bs.length ≤ 16) :
    (setBlock v k bs)[q.val] = if k ≤ q.val ∧ q.val < k + bs.length then bs.getD (q.val - k) 0 else v[q.val] := by
  induction bs generalizing v k with
  | nil => simp [setBlock]
  | cons b bs ih =>
    simp only [List.length_cons] at h
    have hk : (Fin.ofNat 16 k).val = k := Nat.mod_eq_of_lt (by omega)
    rw [setBlock, ih _ _ (by omega), Vector.getElem_set]
    simp only [hk, List.length_cons]
    by_cases h1 : k = q.val
    · rw [if_neg (by omega), if_pos h1, if_pos (by omega)]
      simp [h1]
    · rw [if_neg (c := k = q.val) h1]
      by_cases h2 : k + 1 ≤ q.val ∧ q.val < k + 1 + bs.length
      · rw [if_pos h2, if_pos (by omega)]
        obtain ⟨d, hd⟩ : ∃ d, q.val = k + 1 + d := ⟨q.val - (k + 1), by omega⟩
        simp [hd, show k + 1 + d - k = d + 1 by omega]
      · rw [if_neg h2, if_neg (by omega)]

/-- A V register after bytes were written to ascending registers (spec/42_index_memory.md R175). -/
theorem State.readV_setRegistersFrom (s : State) (k : Nat) (bs : List Byte) (q : Reg) (h : k + bs.length ≤ 16) :
    (s.setRegistersFrom k bs).readV q =
      if k ≤ q.val ∧ q.val < k + bs.length then bs.getD (q.val - k) 0 else s.readV q :=
  setBlock_getElem s.v k bs q h

/-- The least held key, with the keys below it not held (spec/44_keypad_timers.md R202). -/
theorem lowestKeyHeld_eq_some {keys : Word} {k : Nat} :
    lowestKeyHeld keys = some k ↔ k < 16 ∧ keyHeld keys k = true ∧ ∀ j < k, keyHeld keys j = false := by
  have hr : keyNumbers = List.range 16 := rfl
  rw [lowestKeyHeld, hr, List.find?_range_eq_some]
  simp [and_left_comm]

/-- No key is held exactly if the key vector is zero (spec/44_keypad_timers.md R202). -/
theorem lowestKeyHeld_eq_none {keys : Word} : lowestKeyHeld keys = none ↔ keys = 0 := by
  have hr : keyNumbers = List.range 16 := rfl
  rw [lowestKeyHeld, hr, List.find?_eq_none]
  constructor
  · intro h
    apply BitVec.eq_of_getLsbD_eq
    intro i hi
    have := h i (by simpa using hi)
    simpa [keyHeld] using this
  · rintro rfl; simp [keyHeld]

end Sys2Proof.Machine
end

