-- ==== Sys2Proof/Laws/Display.lean ====
section
/-! SUPPORT. The laws of toggling pixels. -/

namespace Sys2Proof.Machine

theorem pixelIndex_lt (c r : Nat) : pixelIndex c r < 2048 := Nat.mod_lt _ (by decide)

@[simp] theorem togglePixel_getLsbD (d : BitVec 2048 × Bool) (k q : Nat) (hk : k < 2048) :
    (togglePixel d k).1.getLsbD q = (d.1.getLsbD q ^^ decide (k = q)) := by
  simp [togglePixel, BitVec.getLsbD_twoPow, hk]

/-- A pixel after distinct targets are toggled: inverted if it is a target (spec/43_display.md R191). -/
theorem foldl_togglePixel_getLsbD (ts : List Nat) (d : BitVec 2048 × Bool) (q : Nat) (hn : ts.Nodup)
    (hlt : ∀ k ∈ ts, k < 2048) :
    (ts.foldl togglePixel d).1.getLsbD q = (d.1.getLsbD q ^^ decide (q ∈ ts)) := by
  induction ts generalizing d with
  | nil => simp
  | cons k ts ih =>
    rw [List.nodup_cons] at hn
    rw [List.foldl_cons, ih _ hn.2 fun k hk => hlt k (by simp [hk]), togglePixel_getLsbD _ _ _ (hlt k (by simp))]
    by_cases h : k = q
    · subst h; simp [hn.1]
    · simp [h, Ne.symm h]

/-- The collision after distinct targets are toggled: one of them was ON (spec/43_display.md R191). -/
theorem foldl_togglePixel_snd (ts : List Nat) (d : BitVec 2048 × Bool) (hn : ts.Nodup) (hlt : ∀ k ∈ ts, k < 2048) :
    (ts.foldl togglePixel d).2 = (d.2 || ts.any fun k => d.1.getLsbD k) := by
  induction ts generalizing d with
  | nil => simp
  | cons k ts ih =>
    rw [List.nodup_cons] at hn
    rw [List.foldl_cons, ih _ hn.2 fun k hk => hlt k (by simp [hk])]
    have h1 : (ts.any fun q => (togglePixel d k).1.getLsbD q) = ts.any fun q => d.1.getLsbD q := by
      rw [Bool.eq_iff_iff, List.any_eq_true, List.any_eq_true]
      refine exists_congr fun q => and_congr_right fun hq => ?_
      rw [togglePixel_getLsbD _ _ _ (hlt k (by simp))]
      have : k ≠ q := fun h => hn.1 (h ▸ hq)
      simp [this]
    rw [h1]
    simp [togglePixel, Bool.or_assoc]

/-- Membership in the targets of a row (spec/43_display.md R191). -/
theorem mem_rowTargets {x0 row q : Nat} {b : Byte} :
    q ∈ rowTargets x0 row b ↔ ∃ j < 8, b.getLsbD (7 - j) = true ∧ q = pixelIndex (x0 + j) row := by
  have hr : spriteColumns = List.range 8 := rfl
  simp only [rowTargets, hr, List.mem_map, List.mem_filter, List.mem_range]
  constructor
  · rintro ⟨j, ⟨h1, h2⟩, rfl⟩; exact ⟨j, h1, h2, rfl⟩
  · rintro ⟨j, h1, h2, rfl⟩; exact ⟨j, ⟨h1, h2⟩, rfl⟩

/-- Membership in the targets of a sprite (spec/43_display.md R191). -/
theorem mem_spriteTargets {x0 row q : Nat} {bs : List Byte} :
    q ∈ spriteTargets x0 row bs ↔
      ∃ i b, bs[i]? = some b ∧ ∃ j < 8, b.getLsbD (7 - j) = true ∧ q = pixelIndex (x0 + j) (row + i) := by
  induction bs generalizing row with
  | nil => simp [spriteTargets]
  | cons b bs ih =>
    rw [spriteTargets, List.mem_append, mem_rowTargets, ih]
    constructor
    · rintro (⟨j, h⟩ | ⟨i, c, hi, j, hj, hb, rfl⟩)
      · exact ⟨0, b, rfl, j, h⟩
      · exact ⟨i + 1, c, by simpa using hi, j, hj, hb, by rw [show row + (i + 1) = row + 1 + i by omega]⟩
    · rintro ⟨i, c, hi, j, hj, hb, rfl⟩
      cases i with
      | zero => simp only [List.getElem?_cons_zero, Option.some.injEq] at hi; subst hi; exact .inl ⟨j, hj, hb, rfl⟩
      | succ i => exact .inr ⟨i, c, by simpa using hi, j, hj, hb, by rw [show row + (i + 1) = row + 1 + i by omega]⟩

theorem spriteTargets_lt {x0 row q : Nat} {bs : List Byte} (h : q ∈ spriteTargets x0 row bs) : q < 2048 := by
  obtain ⟨_, _, _, _, _, _, rfl⟩ := mem_spriteTargets.mp h
  exact pixelIndex_lt _ _

/-- A pixel after a sprite with distinct targets is drawn: inverted if it is a target (spec/43_display.md R191). -/
theorem State.pixel_draw (s : State) (x y : Reg) (rows : List Byte) (q : Nat)
    (hn : (spriteTargets (s.startColumn x) (s.startRow y) rows).Nodup) :
    (s.draw x y rows).pixel q =
      (s.pixel q ^^ decide (q ∈ spriteTargets (s.startColumn x) (s.startRow y) rows)) :=
  foldl_togglePixel_getLsbD _ _ q hn fun _ => spriteTargets_lt

/-- A V register after a sprite with distinct targets is drawn: VF holds the collision (spec/43_display.md R191). -/
theorem State.readV_draw (s : State) (x y q : Reg) (rows : List Byte)
    (hn : (spriteTargets (s.startColumn x) (s.startRow y) rows).Nodup) :
    (s.draw x y rows).readV q =
      if q = VF then flagByte ((spriteTargets (s.startColumn x) (s.startRow y) rows).any fun k => s.pixel k)
      else s.readV q := by
  have h := foldl_togglePixel_snd _ (s.fb, false) hn fun _ => spriteTargets_lt
  rw [Bool.false_or] at h
  simp only [State.draw, State.readV_setV, toggleAll, h]
  rfl

end Sys2Proof.Machine
end

