-- ==== Sys2Proof/Laws/PerInstr.lean ====
section
/-! SUPPORT. One statement per instruction: its word matches its own row of the opcode map (spec/30_encoding.md R95). It
holds of every term, well-formed or not; that no earlier row matches too needs well-formedness and is an obligation. -/

namespace Sys2Proof

/-- A word of format NNN under the mask of the category. -/
theorem wordNNN_and_category (c : Nibble) (nnn : Addr) : wordNNN c nnn &&& 0xF000 = c ++ (0 : BitVec 12) := by
  rw [wordNNN, show (0xF000 : Word) = (0xF : Nibble) ++ (0 : BitVec 12) from rfl, BitVec.and_append]
  rw [show (0xF : Nibble) = BitVec.allOnes 4 from rfl, BitVec.and_allOnes]
  rw [show (0 : BitVec 12) = 0#12 from rfl, BitVec.and_zero]

/-- The word of any format as category and the twelve bits below it. -/
theorem wordXNN_eq (c : Nibble) (x : Reg) (nn : Byte) :
    wordXNN c x nn = wordNNN c ((BitVec.ofFin x : Nibble) ++ nn) := by
  rw [wordXNN, wordNNN, BitVec.append_assoc]; rfl

theorem wordXYN_eq (c : Nibble) (x y : Reg) (n : Nibble) :
    wordXYN c x y n = wordXNN c x ((BitVec.ofFin y : Nibble) ++ n) := by
  rw [wordXYN, wordXNN, BitVec.append_assoc]; rfl

/-- A word of format XNN under the mask of the category. -/
theorem wordXNN_and_category (c : Nibble) (x : Reg) (nn : Byte) : wordXNN c x nn &&& 0xF000 = c ++ (0 : BitVec 12) := by
  rw [wordXNN_eq, wordNNN_and_category]

/-- A word of format XYN under the mask of the category. -/
theorem wordXYN_and_category (c : Nibble) (x y : Reg) (n : Nibble) :
    wordXYN c x y n &&& 0xF000 = c ++ (0 : BitVec 12) := by
  rw [wordXYN_eq, wordXNN_and_category]

/-- A word of format XNN under the mask of category and NN. -/
theorem wordXNN_and_code (c : Nibble) (x : Reg) (nn : Byte) :
    wordXNN c x nn &&& 0xF0FF = c ++ (0 : Nibble) ++ nn := by
  rw [wordXNN, show (0xF0FF : Word) = (0xF : Nibble) ++ (0 : Nibble) ++ (0xFF : Byte) from rfl, BitVec.and_append,
    BitVec.and_append]
  rw [show (0xF : Nibble) = BitVec.allOnes 4 from rfl, show (0xFF : Byte) = BitVec.allOnes 8 from rfl,
    BitVec.and_allOnes, BitVec.and_allOnes, show (0 : Nibble) = 0#4 from rfl, BitVec.and_zero]

/-- A word of format XYN under the mask of category and N. -/
theorem wordXYN_and_code (c : Nibble) (x y : Reg) (n : Nibble) :
    wordXYN c x y n &&& 0xF00F = c ++ (0 : Byte) ++ n := by
  rw [wordXYN, show (0xF00F : Word) = (0xF : Nibble) ++ (0 : Nibble) ++ (0 : Nibble) ++ (0xF : Nibble) from rfl,
    BitVec.and_append, BitVec.and_append, BitVec.and_append]
  rw [show (0xF : Nibble) = BitVec.allOnes 4 from rfl, BitVec.and_allOnes, BitVec.and_allOnes,
    show (0 : Nibble) = 0#4 from rfl, BitVec.and_zero, BitVec.and_zero]
  revert c n; decide

end Sys2Proof

namespace Sys2Proof.Laws.InRow

/-- The word of the instruction matches the row of R95 that is the instruction's own. -/
def Statement (i : Instr) : Prop :=
  ∃ r ∈ opcodeMap, r.priority = i.row ∧ encode i &&& r.mask = r.value

/-- From the row of an instruction and the match of its word. -/
theorem of_row {i : Instr} (r : OpcodeRow) (hm : r ∈ opcodeMap) (hp : r.priority = i.row)
    (hw : encode i &&& r.mask = r.value) : Statement i := ⟨r, hm, hp, hw⟩

theorem cls : Statement .cls :=
  of_row ⟨1, 0xFFFF, 0x00E0⟩ (by decide) rfl rfl
theorem ret : Statement .ret :=
  of_row ⟨2, 0xFFFF, 0x00EE⟩ (by decide) rfl rfl
theorem nop0 (nnn : Addr) : Statement (.nop0 nnn) :=
  of_row ⟨3, 0xF000, 0x0000⟩ (by decide) rfl (wordNNN_and_category ..)
theorem jp (nnn : Addr) : Statement (.jp nnn) :=
  of_row ⟨4, 0xF000, 0x1000⟩ (by decide) rfl (wordNNN_and_category ..)
theorem call (nnn : Addr) : Statement (.call nnn) :=
  of_row ⟨5, 0xF000, 0x2000⟩ (by decide) rfl (wordNNN_and_category ..)
theorem seImm (x : Reg) (nn : Byte) : Statement (.seImm x nn) :=
  of_row ⟨6, 0xF000, 0x3000⟩ (by decide) rfl (wordXNN_and_category ..)
theorem sneImm (x : Reg) (nn : Byte) : Statement (.sneImm x nn) :=
  of_row ⟨7, 0xF000, 0x4000⟩ (by decide) rfl (wordXNN_and_category ..)
theorem seReg (x y : Reg) : Statement (.seReg x y) :=
  of_row ⟨8, 0xF000, 0x5000⟩ (by decide) rfl (wordXYN_and_category ..)
theorem ldImm (x : Reg) (nn : Byte) : Statement (.ldImm x nn) :=
  of_row ⟨9, 0xF000, 0x6000⟩ (by decide) rfl (wordXNN_and_category ..)
theorem addImm (x : Reg) (nn : Byte) : Statement (.addImm x nn) :=
  of_row ⟨10, 0xF000, 0x7000⟩ (by decide) rfl (wordXNN_and_category ..)
theorem ldReg (x y : Reg) : Statement (.ldReg x y) :=
  of_row ⟨11, 0xF00F, 0x8000⟩ (by decide) rfl (wordXYN_and_code ..)
theorem orReg (x y : Reg) : Statement (.orReg x y) :=
  of_row ⟨12, 0xF00F, 0x8001⟩ (by decide) rfl (wordXYN_and_code ..)
theorem andReg (x y : Reg) : Statement (.andReg x y) :=
  of_row ⟨13, 0xF00F, 0x8002⟩ (by decide) rfl (wordXYN_and_code ..)
theorem xorReg (x y : Reg) : Statement (.xorReg x y) :=
  of_row ⟨14, 0xF00F, 0x8003⟩ (by decide) rfl (wordXYN_and_code ..)
theorem addReg (x y : Reg) : Statement (.addReg x y) :=
  of_row ⟨15, 0xF00F, 0x8004⟩ (by decide) rfl (wordXYN_and_code ..)
theorem sub (x y : Reg) : Statement (.sub x y) :=
  of_row ⟨16, 0xF00F, 0x8005⟩ (by decide) rfl (wordXYN_and_code ..)
theorem shr (x y : Reg) : Statement (.shr x y) :=
  of_row ⟨17, 0xF00F, 0x8006⟩ (by decide) rfl (wordXYN_and_code ..)
theorem subn (x y : Reg) : Statement (.subn x y) :=
  of_row ⟨18, 0xF00F, 0x8007⟩ (by decide) rfl (wordXYN_and_code ..)
theorem shl (x y : Reg) : Statement (.shl x y) :=
  of_row ⟨19, 0xF00F, 0x800E⟩ (by decide) rfl (wordXYN_and_code ..)
theorem nop8 (x y : Reg) (n : Nibble) : Statement (.nop8 x y n) :=
  of_row ⟨20, 0xF000, 0x8000⟩ (by decide) rfl (wordXYN_and_category ..)
theorem sneReg (x y : Reg) : Statement (.sneReg x y) :=
  of_row ⟨21, 0xF000, 0x9000⟩ (by decide) rfl (wordXYN_and_category ..)
theorem ldI (nnn : Addr) : Statement (.ldI nnn) :=
  of_row ⟨22, 0xF000, 0xA000⟩ (by decide) rfl (wordNNN_and_category ..)
theorem jpV0 (nnn : Addr) : Statement (.jpV0 nnn) :=
  of_row ⟨23, 0xF000, 0xB000⟩ (by decide) rfl (wordNNN_and_category ..)
theorem rnd (x : Reg) (nn : Byte) : Statement (.rnd x nn) :=
  of_row ⟨24, 0xF000, 0xC000⟩ (by decide) rfl (wordXNN_and_category ..)
theorem drw (x y : Reg) (n : Nibble) : Statement (.drw x y n) :=
  of_row ⟨25, 0xF000, 0xD000⟩ (by decide) rfl (wordXYN_and_category ..)
theorem skp (x : Reg) : Statement (.skp x) :=
  of_row ⟨26, 0xF0FF, 0xE09E⟩ (by decide) rfl (wordXNN_and_code ..)
theorem sknp (x : Reg) : Statement (.sknp x) :=
  of_row ⟨27, 0xF0FF, 0xE0A1⟩ (by decide) rfl (wordXNN_and_code ..)
theorem illE (x : Reg) (nn : Byte) : Statement (.illE x nn) :=
  of_row ⟨28, 0xF000, 0xE000⟩ (by decide) rfl (wordXNN_and_category ..)
theorem ldVxDt (x : Reg) : Statement (.ldVxDt x) :=
  of_row ⟨29, 0xF0FF, 0xF007⟩ (by decide) rfl (wordXNN_and_code ..)
theorem ldVxK (x : Reg) : Statement (.ldVxK x) :=
  of_row ⟨30, 0xF0FF, 0xF00A⟩ (by decide) rfl (wordXNN_and_code ..)
theorem ldDtVx (x : Reg) : Statement (.ldDtVx x) :=
  of_row ⟨31, 0xF0FF, 0xF015⟩ (by decide) rfl (wordXNN_and_code ..)
theorem ldStVx (x : Reg) : Statement (.ldStVx x) :=
  of_row ⟨32, 0xF0FF, 0xF018⟩ (by decide) rfl (wordXNN_and_code ..)
theorem addI (x : Reg) : Statement (.addI x) :=
  of_row ⟨33, 0xF0FF, 0xF01E⟩ (by decide) rfl (wordXNN_and_code ..)
theorem ldF (x : Reg) : Statement (.ldF x) :=
  of_row ⟨34, 0xF0FF, 0xF029⟩ (by decide) rfl (wordXNN_and_code ..)
theorem ldB (x : Reg) : Statement (.ldB x) :=
  of_row ⟨35, 0xF0FF, 0xF033⟩ (by decide) rfl (wordXNN_and_code ..)
theorem stRegs (x : Reg) : Statement (.stRegs x) :=
  of_row ⟨36, 0xF0FF, 0xF055⟩ (by decide) rfl (wordXNN_and_code ..)
theorem ldRegs (x : Reg) : Statement (.ldRegs x) :=
  of_row ⟨37, 0xF0FF, 0xF065⟩ (by decide) rfl (wordXNN_and_code ..)
theorem illF (x : Reg) (nn : Byte) : Statement (.illF x nn) :=
  of_row ⟨38, 0xF000, 0xF000⟩ (by decide) rfl (wordXNN_and_category ..)

end Sys2Proof.Laws.InRow
end

