-- ==== Sys2Proof/Tests/Slice0.lean ====
section
/-! SUPPORT. The model's own tests: ill-formed terms, decoding of words written out from the spec, single steps from the
vectors of spec/95_test_vectors.md, and a witness for the hypotheses of every statement. Expected values come from the
spec. -/

namespace Sys2Proof.Tests

open Sys2Proof Sys2Proof.Machine

/-! ### Builders -/

/-- The reset state with a word at 0x200 and one settled step of inputs: no key, rnd = 0, no tick. -/
def start (w : Word) : State := { State.reset.placeWord w with inputs := [⟨0, 0, 0⟩] }

/-- The state with V registers set. -/
def withV (s : State) (l : List (Reg × Byte)) : State := l.foldl (fun t p => t.setV p.1 p.2) s

/-- The state with bytes in memory. -/
def withBytes (s : State) (a : Nat) (bs : List Byte) : State := s.setMem (s.mem.seed a bs)

/-- The state with the inputs of its next step: keys, rnd, ticks. -/
def withInput (s : State) (keys : Word) (rnd : Byte) (ticks : Nat) : State :=
  { s with inputs := [⟨keys, rnd, ticks⟩] }

/-- A display with the listed pixels ON. -/
def pixels (l : List Nat) : BitVec 2048 := l.foldl (fun d k => d ||| BitVec.twoPow 2048 k) 0

/-- One step ends in a next state with a property. -/
def after (s : State) (p : State → Bool) : Bool :=
  match step s with
  | .next t => p t
  | .fault _ | .refused _ => false

/-- One step stops, and leaves these in the four fault registers. -/
def stops (s : State) (r : HaltRegs) : Bool :=
  match step s with
  | .fault f => f.haltRegs == r
  | .next _ | .refused _ => false

/-- A word is fetched and its step ends in a next state. -/
def runs (s : State) (w : Word) : Bool := s.fetch == some w && after s fun _ => true

/-! ### Ill-formed terms: one for each check (spec/30_encoding.md R98) -/

theorem test_wf_nop0_is_not_cls : Instr.wellFormed (.nop0 0x0E0) = false := by decide
theorem test_wf_nop0_is_not_ret : Instr.wellFormed (.nop0 0x0EE) = false := by decide
theorem test_wf_nop8_is_not_ld_reg : Instr.wellFormed (.nop8 1 2 0x0) = false := by decide
theorem test_wf_nop8_is_not_shl : Instr.wellFormed (.nop8 1 2 0xE) = false := by decide
theorem test_wf_ill_e_is_not_skp : Instr.wellFormed (.illE 1 0x9E) = false := by decide
theorem test_wf_ill_e_is_not_sknp : Instr.wellFormed (.illE 1 0xA1) = false := by decide
theorem test_wf_ill_f_is_not_ld_vx_dt : Instr.wellFormed (.illF 1 0x07) = false := by decide
theorem test_wf_ill_f_is_not_ld_regs : Instr.wellFormed (.illF 1 0x65) = false := by decide

/-! ### Decoding (spec/30_encoding.md R95, R106; spec/95_test_vectors.md) -/

theorem test_decode_cls : decodeWord 0x00E0 = .cls := by decide
theorem test_decode_ret : decodeWord 0x00EE = .ret := by decide
theorem test_decode_nop0 : decodeWord 0x0FFF = .nop0 0xFFF := by decide
theorem test_decode_jp : decodeWord 0x12A0 = .jp 0x2A0 := by decide
theorem test_decode_call : decodeWord 0x2300 = .call 0x300 := by decide
theorem test_decode_se_imm : decodeWord 0x3A42 = .seImm 0xA 0x42 := by decide
theorem test_decode_sne_imm : decodeWord 0x4A42 = .sneImm 0xA 0x42 := by decide
theorem test_decode_se_reg : decodeWord 0x5120 = .seReg 1 2 := by decide
theorem test_decode_se_reg_ignores_n : decodeWord 0x512F = .seReg 1 2 := by decide
theorem test_decode_ld_imm : decodeWord 0x6A7F = .ldImm 0xA 0x7F := by decide
theorem test_decode_add_imm : decodeWord 0x7105 = .addImm 1 0x05 := by decide
theorem test_decode_ld_reg : decodeWord 0x8120 = .ldReg 1 2 := by decide
theorem test_decode_or : decodeWord 0x8121 = .orReg 1 2 := by decide
theorem test_decode_and : decodeWord 0x8122 = .andReg 1 2 := by decide
theorem test_decode_xor : decodeWord 0x8123 = .xorReg 1 2 := by decide
theorem test_decode_add_reg : decodeWord 0x8014 = .addReg 0 1 := by decide
theorem test_decode_sub : decodeWord 0x8015 = .sub 0 1 := by decide
theorem test_decode_shr : decodeWord 0x8106 = .shr 1 0 := by decide
theorem test_decode_subn : decodeWord 0x8017 = .subn 0 1 := by decide
theorem test_decode_shl : decodeWord 0x810E = .shl 1 0 := by decide
theorem test_decode_nop8 : decodeWord 0x812F = .nop8 1 2 0xF := by decide
theorem test_decode_sne_reg : decodeWord 0x9120 = .sneReg 1 2 := by decide
theorem test_decode_ld_i : decodeWord 0xA300 = .ldI 0x300 := by decide
theorem test_decode_jp_v0 : decodeWord 0xB300 = .jpV0 0x300 := by decide
theorem test_decode_rnd : decodeWord 0xC10F = .rnd 1 0x0F := by decide
theorem test_decode_drw : decodeWord 0xD125 = .drw 1 2 5 := by decide
theorem test_decode_skp : decodeWord 0xE09E = .skp 0 := by decide
theorem test_decode_sknp : decodeWord 0xE5A1 = .sknp 5 := by decide
theorem test_decode_ill_e : decodeWord 0xE19F = .illE 1 0x9F := by decide
theorem test_decode_ld_vx_dt : decodeWord 0xF107 = .ldVxDt 1 := by decide
theorem test_decode_ld_vx_k : decodeWord 0xF30A = .ldVxK 3 := by decide
theorem test_decode_ld_dt_vx : decodeWord 0xF015 = .ldDtVx 0 := by decide
theorem test_decode_ld_st_vx : decodeWord 0xF018 = .ldStVx 0 := by decide
theorem test_decode_add_i : decodeWord 0xF11E = .addI 1 := by decide
theorem test_decode_ld_f : decodeWord 0xF329 = .ldF 3 := by decide
theorem test_decode_ld_b : decodeWord 0xF033 = .ldB 0 := by decide
theorem test_decode_st_regs : decodeWord 0xFF55 = .stRegs 0xF := by decide
theorem test_decode_ld_regs : decodeWord 0xFF65 = .ldRegs 0xF := by decide
theorem test_decode_ill_f : decodeWord 0xF075 = .illF 0 0x75 := by decide
/-- A byte list shorter than a word is rejected by name. -/
theorem test_decode_truncated : decodeBytes [0x60] = .truncated := by decide
/-- Memory order is high byte first (R68). -/
theorem test_decode_bytes : decodeBytes [0x1A, 0xBC, 0x60] = .instr (.jp 0xABC) [0x60] := by decide
/-- The table's numbering: bit 0 is the least significant bit of the word. -/
theorem test_decode_table_word : decodeTableWord 16 0xD125 = some (.drw 1 2 5) := by decide

/-! ### Reset (spec/70_reset_and_hazards.md R251, R252) -/

/-- The first and last byte of the conventional font, and the bytes around it. -/
theorem test_reset_font :
    ([0x04F, 0x050, 0x09F, 0x0A0, 0x200].map fun a => State.reset.mem.read a) = [0, 0xF0, 0x80, 0, 0] := by
  decide
theorem test_reset_invariant : State.reset.inv = true := by decide
/-- From reset with the empty image the first step is NOP0 (P6b), whatever the free inputs are. -/
theorem test_reset_step : (match step State.reset with | .next t => t.pc | _ => 0) = 0x0202 := by decide

/-! ### Single steps: the vectors of spec/95_test_vectors.md Part 2, by their names there -/

/-- T-CF-1b. -/
theorem test_nop0 :
    after { start 0x01E0 with fb := pixels [5] }
      (fun t => t.pc == 0x0202 && t.fb == pixels [5]) = true := by decide +kernel
/-- T-CF-2. -/
theorem test_jp : after (start 0x1ABC) (fun t => t.pc == 0x0ABC) = true := by decide
/-- T-CF-2b. -/
theorem test_jp_odd : after (start 0x1201) (fun t => t.pc == 0x0201 && t.fetch == some 0x0100) = true := by decide
/-- T-CF-3b. -/
theorem test_call_last_level :
    after ((start 0x2300).setStack (List.replicate 15 0x0204))
      (fun t => t.pc == 0x0300 && t.sp == 16 && t.stack.getLast? == some 0x0202) = true := by decide
/-- T-CF-3c. -/
theorem test_call_full :
    stops ((start 0x2300).setStack (List.replicate 16 0x0204)) ⟨true, 6, 0x2300, 0x0200⟩ = true := by decide
/-- T-CF-4. -/
theorem test_ret :
    after ((start 0x00EE).setStack [0x0222, 0x0ABC])
      (fun t => t.pc == 0x0ABC && t.stack == [0x0222]) = true := by decide
/-- T-CF-4b. -/
theorem test_ret_empty : stops (start 0x00EE) ⟨true, 1, 0x00EE, 0x0200⟩ = true := by decide
/-- T-CF-5. -/
theorem test_se_imm_taken : after (withV (start 0x3A42) [(0xA, 0x42)]) (fun t => t.pc == 0x0204) = true := by decide
/-- T-CF-6. -/
theorem test_se_imm_not_taken : after (withV (start 0x3A42) [(0xA, 0x43)]) (fun t => t.pc == 0x0202) = true := by decide
/-- T-CF-7. -/
theorem test_sne_imm_taken : after (withV (start 0x4A42) [(0xA, 0x43)]) (fun t => t.pc == 0x0204) = true := by decide
/-- T-CF-8. -/
theorem test_sne_imm_not_taken :
    after (withV (start 0x4A42) [(0xA, 0x42)]) (fun t => t.pc == 0x0202) = true := by decide
/-- T-CF-9b. -/
theorem test_se_reg_taken : after (withV (start 0x5121) [(1, 4), (2, 4)]) (fun t => t.pc == 0x0204) = true := by decide
/-- T-CF-10. -/
theorem test_se_reg_not_taken :
    after (withV (start 0x5120) [(1, 4), (2, 5)]) (fun t => t.pc == 0x0202) = true := by decide
/-- T-CF-11. -/
theorem test_sne_reg_taken : after (withV (start 0x9120) [(1, 4), (2, 5)]) (fun t => t.pc == 0x0204) = true := by decide
/-- T-CF-12. -/
theorem test_sne_reg_not_taken :
    after (withV (start 0x9120) [(1, 4), (2, 4)]) (fun t => t.pc == 0x0202) = true := by decide
/-- T-CF-14. -/
theorem test_jp_v0 : after (withV (start 0xBFFF) [(0, 0xFF)]) (fun t => t.pc == 0x10FE) = true := by decide
/-- T-CF-14, the next step: fault_ir is a free value. -/
theorem test_fetch_above_last :
    step ((start 0xBFFF).setPc 0x10FE) = .fault (.outOfBounds (Config.fetchFaultIr 0) 0x10FE) := rfl
/-- T-ALU-2. -/
theorem test_ld_imm_vf : after (start 0x6F55) (fun t => t.readV VF == 0x55 && t.pc == 0x0202) = true := by decide
/-- T-ALU-4. -/
theorem test_add_imm_wraps :
    after (withV (start 0x7101) [(1, 0xFF), (VF, 7)]) (fun t => t.readV 1 == 0 && t.readV VF == 7) = true := by decide
/-- T-ALU-5. -/
theorem test_ld_reg :
    after (withV (start 0x8120) [(1, 1), (2, 0x99)])
      (fun t => t.readV 1 == 0x99 && t.readV 2 == 0x99) = true := by decide
/-- T-ALU-6. -/
theorem test_or :
    after (withV (start 0x8121) [(1, 0xF0), (2, 0x0F), (VF, 7)])
      (fun t => t.readV 1 == 0xFF && t.readV VF == 7) = true := by decide
/-- T-ALU-6b. -/
theorem test_and :
    after (withV (start 0x8122) [(1, 0xF3), (2, 0x3F), (VF, 7)])
      (fun t => t.readV 1 == 0x33 && t.readV VF == 7) = true := by decide
/-- T-ALU-6c. -/
theorem test_xor :
    after (withV (start 0x8123) [(1, 0xFF), (2, 0x0F), (VF, 7)])
      (fun t => t.readV 1 == 0xF0 && t.readV VF == 7) = true := by decide
/-- T-ALU-8c. -/
theorem test_add_reg_carry :
    after (withV (start 0x8224) [(2, 0x90)]) (fun t => t.readV 2 == 0x20 && t.readV VF == 1) = true := by decide
/-- T-ALU-F1. -/
theorem test_add_reg_into_vf :
    after (withV (start 0x8F14) [(VF, 0xF0), (1, 0x20)]) (fun t => t.readV VF == 1) = true := by decide
/-- T-ALU-10. -/
theorem test_sub_borrow :
    after (withV (start 0x8015) [(0, 5), (1, 0xA)]) (fun t => t.readV 0 == 0xFB && t.readV VF == 0) = true := by decide
/-- T-ALU-10b. -/
theorem test_sub_equal :
    after (withV (start 0x8015) [(0, 7), (1, 7)]) (fun t => t.readV 0 == 0 && t.readV VF == 1) = true := by decide
/-- T-ALU-13. -/
theorem test_shr :
    after (withV (start 0x8106) [(1, 5), (0, 0xAA)])
      (fun t => t.readV 1 == 2 && t.readV VF == 1 && t.readV 0 == 0xAA) = true := by decide
/-- T-ALU-F4. -/
theorem test_shr_vf : after (withV (start 0x8F06) [(VF, 3)]) (fun t => t.readV VF == 1) = true := by decide
/-- T-ALU-12. -/
theorem test_subn_writes_vy :
    after (withV (start 0x8017) [(0, 0xA), (1, 3)])
      (fun t => t.readV 1 == 0xF9 && t.readV 0 == 0xA && t.readV VF == 0) = true := by decide
/-- T-ALU-F6. -/
theorem test_subn_into_vf :
    after (withV (start 0x81F7) [(1, 3), (VF, 9)]) (fun t => t.readV VF == 1 && t.readV 1 == 3) = true := by decide
/-- T-ALU-14. -/
theorem test_shl :
    after (withV (start 0x810E) [(1, 0x81)]) (fun t => t.readV 1 == 2 && t.readV VF == 1) = true := by decide
/-- T-ALU-F5. -/
theorem test_shl_vf : after (withV (start 0x8F0E) [(VF, 0x40)]) (fun t => t.readV VF == 0) = true := by decide
/-- T-ALU-15. -/
theorem test_nop8 :
    after (withV (start 0x812F) [(1, 1), (2, 2), (VF, 3)])
      (fun t => t.pc == 0x0202 && t.readV 1 == 1 && t.readV VF == 3) = true := by decide
/-- T-ALU-16. -/
theorem test_rnd : after (withInput (start 0xC10F) 0 0xA7 0) (fun t => t.readV 1 == 7) = true := by decide
/-- T-MEM-1. -/
theorem test_ld_i : after (start 0xA300) (fun t => t.index == 0x0300) = true := by decide
/-- T-MEM-2b. -/
theorem test_add_i_in_range :
    after (withV ((start 0xF11E).setIndex 0x0FFE) [(1, 1), (VF, 7)])
      (fun t => t.index == 0x0FFF && t.readV VF == 7) = true := by decide
/-- T-MEM-3d. -/
theorem test_add_i_wraps :
    after (withV ((start 0xF11E).setIndex 0xFFFF) [(1, 2)])
      (fun t => t.index == 0x0001 && t.readV VF == 1) = true := by decide
/-- T-MEM-5. -/
theorem test_ld_f_not_masked : after (withV (start 0xF329) [(3, 0xFF)]) (fun t => t.index == 0x054B) = true := by decide
/-- T-MEM-8. -/
theorem test_ld_b_last :
    after (withV ((start 0xF033).setIndex 0x0FFD) [(0, 0x7B)])
      (fun t => [0xFFD, 0xFFE, 0xFFF].map t.mem.read == [1, 2, 3]) = true := by decide
/-- T-MEM-8b. -/
theorem test_ld_b_out_of_bounds :
    stops (withV ((start 0xF033).setIndex 0x0FFE) [(0, 0x7B)]) ⟨true, 5, 0xF033, 0x0200⟩ = true := by decide
/-- T-MEM-11. -/
theorem test_st_regs_last :
    after (withV ((start 0xF255).setIndex 0x0FFD) [(0, 1), (1, 2), (2, 3), (3, 4)])
      (fun t => [0xFFC, 0xFFD, 0xFFE, 0xFFF].map t.mem.read == [0, 1, 2, 3] && t.index == 0x0FFD) = true := by decide
/-- T-MEM-11b. -/
theorem test_st_regs_out_of_bounds :
    stops ((start 0xF255).setIndex 0x0FFE) ⟨true, 5, 0xF255, 0x0200⟩ = true := by decide
/-- T-MEM-14. -/
theorem test_ld_regs_font :
    after ((start 0xF165).setIndex 0x0050)
      (fun t => t.readV 0 == 0xF0 && t.readV 1 == 0x90 && t.readV 2 == 0 && t.index == 0x0050) = true := by decide
/-- T-MEM-15. -/
theorem test_ld_regs_out_of_bounds :
    stops ((start 0xF065).setIndex 0x1000) ⟨true, 5, 0xF065, 0x0200⟩ = true := by decide
/-- T-DRW-6. -/
theorem test_drw_wraps_right :
    after (withV (withBytes ((start 0xD011).setIndex 0x0300) 0x300 [0xFF]) [(0, 0x3C), (1, 5)])
      (fun t => t.fb == pixels [380, 381, 382, 383, 384, 385, 386, 387] && t.readV VF == 0) = true := by decide +kernel
/-- T-DRW-13. -/
theorem test_drw_vf_as_coordinate :
    after (withV (withBytes ((start 0xDF11).setIndex 0x0300) 0x300 [0x80]) [(VF, 5)])
      (fun t => t.fb == pixels [5] && t.readV VF == 0) = true := by decide +kernel
/-- T-DRW-14. -/
theorem test_cls :
    after (withV { start 0x00E0 with fb := pixels [0, 100, 2047] } [(VF, 1)])
      (fun t => t.fb == 0 && t.readV VF == 1) = true := by decide +kernel
/-- T-KEY-2b. -/
theorem test_skp_highest_key :
    after (withInput (withV (start 0xE09E) [(0, 0xF)]) 0x8000 0 0) (fun t => t.pc == 0x0204) = true := by decide
/-- T-KEY-5. -/
theorem test_skp_bad_key : stops (withV (start 0xE09E) [(0, 0x10)]) ⟨true, 7, 0xE09E, 0x0200⟩ = true := by decide
/-- T-KEY-4. -/
theorem test_sknp_held :
    after (withInput (withV (start 0xE0A1) [(0, 5)]) 0x0020 0 0) (fun t => t.pc == 0x0202) = true := by decide
/-- T-KEY-5b. -/
theorem test_sknp_bad_key : stops (withV (start 0xE0A1) [(0, 0xFF)]) ⟨true, 7, 0xE0A1, 0x0200⟩ = true := by decide
/-- T-KEY-6. -/
theorem test_ill_e : stops (start 0xE19F) ⟨true, 3, 0xE19F, 0x0200⟩ = true := by decide
/-- T-KEY-7. -/
theorem test_ld_vx_k_polls :
    after (withV (start 0xF30A) [(3, 0x77)]) (fun t => t.pc == 0x0200 && t.readV 3 == 0x77) = true := by decide
/-- T-KEY-8. -/
theorem test_ld_vx_k_lowest :
    after (withInput (start 0xF30A) 0x0108 0 0) (fun t => t.readV 3 == 3 && t.pc == 0x0202) = true := by decide
/-- T-TMR-1. -/
theorem test_ld_dt_vx : after (withV (start 0xF015) [(0, 0x3C)]) (fun t => t.dt == 0x3C) = true := by decide
/-- P5, step 4: the tick comes after the step. -/
theorem test_ld_dt_vx_then_tick :
    after (withInput (withV (start 0xF015) [(0, 0x3C)]) 0 0 1) (fun t => t.dt == 0x3B) = true := by decide
/-- T-TMR-2. -/
theorem test_ld_vx_dt : after { start 0xF107 with dt := 0x2A } (fun t => t.readV 1 == 0x2A) = true := by decide
/-- T-TMR-3. -/
theorem test_ld_st_vx : after (withV (start 0xF018) [(0, 2)]) (fun t => t.st == 2 && t.sndOn) = true := by decide
/-- T-ILL-2. -/
theorem test_ill_f : stops (start 0xF075) ⟨true, 4, 0xF075, 0x0200⟩ = true := by decide
/-- T-TMR-4, T-TMR-5, T-TMR-6. -/
theorem test_tick : [State.tick { State.reset with dt := 2, st := 1 }, State.tick State.reset,
    State.tick { State.reset with dt := 0xFF }].map (fun t => (t.dt, t.st)) = [(1, 0), (0, 0), (0xFE, 0)] := by decide

/-! ### Witnesses: states and operands that meet the hypotheses of the statements, clause by clause -/

theorem witness_DecodeOfEncode :
    [Instr.drw 15 15 15, .nop0 0x0E1, .nop8 15 15 0xD, .illE 15 0x9F, .illF 15 0xFF].all Instr.wellFormed = true :=
  by decide
theorem witness_DecodeTakesFirstMatchingRow :
    ∃ a b : OpcodeRow, a ∈ opcodeMap ∧ b ∈ opcodeMap ∧ (0x00EE : Word) &&& a.mask = a.value ∧
      (0x00EE : Word) &&& b.mask = b.value ∧ a ≠ b :=
  ⟨⟨2, 0xFFFF, 0x00EE⟩, ⟨3, 0xF000, 0x0000⟩, by decide⟩
theorem witness_AccessFailsAbove4095 :
    (State.reset.readBytes 4095 1).isSome = true ∧ State.reset.readBytes 4096 1 = none ∧
      State.reset.readBytes 4095 2 = none ∧ (State.reset.writeBytes 4095 [1]).isSome = true ∧
      State.reset.writeBytes 4095 [1, 2] = none := by decide
theorem witness_FieldsAreBitSlices :
    wordOfBytes 0xD1 0x25 = 0xD125 := by decide
theorem witness_StepRunsDecodedInstruction_no_fetch :
    ((start 0).setPc 0xFFFF).halt.halted = false ∧ ((start 0).setPc 0xFFFF).fetch = none := by decide
theorem witness_StepRunsDecodedInstruction :
    (start 0x00EE).halt.halted = false ∧ (start 0x00EE).fetch = some 0x00EE ∧ decodeWord 0x00EE = .ret := by decide
theorem witness_PlacedWordRunsNext :
    ((start 0).setPc 0x0FFE).halt.halted = false ∧ ((start 0).setPc 0x0FFE).pc.toNat ≤ 0x0FFE ∧
      (((start 0).setPc 0x0FFE).withFetchWord 16 0x6A7F).fetch = some 0x6A7F := by decide
theorem witness_FetchIsBigEndianAndBounded :
    ((start 0).setPc 0x0FFE).pc.toNat ≤ 0x0FFE ∧ 0x0FFF ≤ ((start 0).setPc 0x0FFF).pc.toNat ∧
      ((start 0).setPc 0x0FFF).halt.halted = false := by decide
theorem witness_HaltedCoreTakesNoStep :
    ({ start 0x6A7F with halt := ⟨true, 1, 0x00EE, 0x0200⟩ } : State).halt.halted = true := by decide
theorem witness_TickLowersNonzeroTimers :
    0 < ({ start 0 with dt := 1, st := 0xFF } : State).dt.toNat ∧
      0 < ({ start 0 with dt := 1, st := 0xFF } : State).st.toNat ∧
      (start 0).dt = 0 ∧ (start 0).st = 0 := by decide
theorem witness_PcAfterStep_jp :
    runs (start 0x1200) 0x1200 = true := by decide
theorem witness_PcAfterStep_call :
    runs ((start 0x2300).setStack (List.replicate 15 0x0204)) 0x2300 = true := by decide
theorem witness_PcAfterStep_ret :
    runs ((start 0x00EE).setStack [0x1000]) 0x00EE = true := by decide
theorem witness_PcAfterStep_jp_v0 :
    runs (withV (start 0xBFFF) [(0, 0xFF)]) 0xBFFF = true := by decide
theorem witness_PcAfterStep_se_imm :
    runs (withV (start 0x30FF) [(0, 0xFF)]) 0x30FF = true := by decide
theorem witness_PcAfterStep_sne_imm :
    runs (withV (start 0x40FF) [(0, 0xFF)]) 0x40FF = true := by decide
theorem witness_PcAfterStep_se_reg :
    runs (start 0x5FF0) 0x5FF0 = true := by decide
theorem witness_PcAfterStep_sne_reg :
    runs (start 0x9FF0) 0x9FF0 = true := by decide
theorem witness_PcAfterStep_skp :
    runs (withInput (withV (start 0xEF9E) [(VF, 15)]) 0x8000 0 0) 0xEF9E = true := by decide
theorem witness_PcAfterStep_sknp :
    runs (withInput (withV (start 0xEFA1) [(VF, 15)]) 0x8000 0 0) 0xEFA1 = true := by decide
theorem witness_PcAfterStep_ld_vx_k_none :
    runs (start 0xFF0A) 0xFF0A = true := by decide
theorem witness_PcAfterStep_ld_vx_k_held :
    runs (withInput (start 0xFF0A) 0x8000 0 0) 0xFF0A = true := by decide
theorem witness_PcAfterStep_other :
    runs ((State.placeWord ((start 0).setPc 0x0FFE) 0x6A7F)) 0x6A7F = true := by decide
theorem witness_StepKeepsInvariant :
    (start 0x2300).inv = true ∧ runs (start 0x2300) 0x2300 = true := by decide
theorem witness_StepKeepsInvariant_limits :
    (((start 0xB0FF).setPc 0x10FE).setStack (List.replicate 16 0x1000)).inv = true ∧
      (((start 0x00EE).setStack (List.replicate 16 0x1000)).inv = true ∧
      runs ((start 0x00EE).setStack (List.replicate 16 0x1000)) 0x00EE = true) := by decide
theorem witness_LoadBuildsMemory :
    (List.replicate 3584 (1 : Byte)).length ≤ 3584 ∧ (List.replicate 3584 (1 : Byte))[3583]? = some 1 ∧
      Config.font[79]? = some 0x80 ∧ 3584 < (List.replicate 3585 (1 : Byte)).length :=
  ⟨List.length_replicate.le, by rw [List.getElem?_replicate]; rfl, by decide, by rw [List.length_replicate]; decide⟩
theorem witness_ResetLeavesAnyState :
    ([] : List Byte).length ≤ 3584 ∧ 3584 < (List.replicate 3585 (1 : Byte)).length ∧
      ∃ t, State.restart { start 0 with halt := ⟨true, 1, 0x00EE, 0x0200⟩ } [] = some t :=
  ⟨by decide, by rw [List.length_replicate]; decide, _, rfl⟩
theorem witness_LoadedStateMeetsInvariant :
    ∃ s, State.load (List.replicate 3584 1) = some s :=
  ⟨_, if_pos List.length_replicate.le⟩
theorem witness_CompletesUnlessItsCheckFails :
    ((Instr.drw 0 1 1).failingCheck ((start 0).setIndex 0x0FFF)).isNone ∧
      (Instr.ret.failingCheck (start 0)).isSome ∧
      ((Instr.drw 0 1 2).failingCheck ((start 0).setIndex 0x0FFF)).isSome ∧
      ((Instr.drw 0 1 0).failingCheck ((start 0).setIndex 0xFFFF)).isNone ∧
      ((Instr.skp 0).failingCheck (withV (start 0) [(0, 15)])).isNone ∧
      ((Instr.skp 0).failingCheck (withV (start 0) [(0, 16)])).isSome ∧
      ((Instr.call 0).failingCheck ((start 0).setStack (List.replicate 15 0))).isNone ∧
      ((Instr.call 0).failingCheck ((start 0).setStack (List.replicate 16 0))).isSome := by decide
theorem witness_FaultEntryRegisters_exec :
    (start 0xE000).halt.halted = false ∧ (start 0xE000).fetch = some 0xE000 ∧
      step (start 0xE000) = .fault (.unknownESub 0xE000 0x0200) :=
  ⟨by decide, by decide, rfl⟩
theorem witness_FaultEntryRegisters_fetch :
    ((start 0).setPc 0x0FFF).halt.halted = false ∧ ((start 0).setPc 0x0FFF).fetch = none ∧
      ∃ f, step ((start 0).setPc 0x0FFF) = .fault f :=
  ⟨by decide, by decide, _, rfl⟩
theorem witness_OnlyListedPartsChange :
    ∃ t, exec (.drw 0 1 5) (start 0) = .next t :=
  ⟨_, rfl⟩
theorem witness_OnlyListedRegistersChange :
    ∃ t, exec (.ldRegs 15) (start 0) = .next t :=
  ⟨_, rfl⟩
theorem witness_OnlyStoredBytesChange :
    ∃ t, exec (.stRegs 15) ((start 0).setIndex 0x0FF0) = .next t :=
  ⟨_, rfl⟩
theorem witness_FlagWritersLeaveZeroOrOne :
    (∃ t, exec (.subn 15 0) (start 0) = .next t) ∧ (∃ t, exec (.drw 15 15 15) (start 0) = .next t) ∧
      ∃ t, exec (.addI 15) ((start 0).setIndex 0xFFFF) = .next t :=
  ⟨⟨_, rfl⟩, ⟨_, rfl⟩, ⟨_, rfl⟩⟩
theorem witness_DisplayReadOnlyByDraw :
    ∀ x y n, Instr.cls ≠ .drw x y n := nofun
theorem witness_InputsSeenOnlyBySamplers :
    State.keys { start 0 with inputs := [⟨0, 0xA7, 3⟩], drawn := 9, sinceReset := 5 } = (start 0).keys ∧
      State.rnd { start 0 with inputs := [⟨0xFFFF, 0, 3⟩], drawn := 9, sinceReset := 5 } = (start 0).rnd :=
  by decide
theorem witness_StoredBlockIsFetched :
    (0 : Reg) < 1 ∧
      ((start 0).setIndex 0x0200).pc.toNat = ((start 0).setIndex 0x0200).index.toNat + (0 : Reg).val ∧
      ∃ t, exec (.stRegs 1) ((start 0).setIndex 0x0200) = .next t :=
  ⟨by decide, by decide, _, rfl⟩
theorem witness_FinishedStaysFinished :
    (start 0x1200).halt.halted = false ∧ (start 0x1200).finished :=
  ⟨by decide, 0x1200, 0x200, by decide, by decide, by decide⟩
theorem witness_ReferenceScheduleOneTickPerFrame :
    0 < Config.ipf ∧ State.onReferenceSchedule 2 3 { start 0 with inputs := [⟨0, 0, 0⟩, ⟨0, 0, 1⟩, ⟨0, 0, 0⟩] } :=
  ⟨by decide, by unfold State.onReferenceSchedule; decide⟩
/-- With free inputs, from reset: the ticks come after steps 12 and 24, counted from 1. -/
theorem witness_ReferenceScheduleOneTickPerFrame_free :
    (State.reset.withReferenceTicks 12 25).onReferenceSchedule 12 25 ∧
      ((List.range 25).filter fun k => ((State.reset.withReferenceTicks 12 25).inputAt k).ticks = 1) = [11, 23] :=
  ⟨by unfold State.onReferenceSchedule; decide, by decide⟩
theorem witness_ReferenceScheduleOneTickPerFrame_step :
    let s := State.withReferenceTicks { start 0xF30A with sinceReset := 1 } 2 2
    s.onReferenceSchedule 2 (1 + 1) ∧ runs s 0xF30A = true :=
  ⟨by unfold State.onReferenceSchedule; decide, by decide⟩
theorem witness_ReferenceScheduleOneTickPerFrame_reset :
    ∃ t, State.restart { start 0 with sinceReset := 7 } [] = some t ∧ t.sinceReset = 0 :=
  ⟨_, rfl, rfl⟩
/-- R259: with IPF = 2 the step that is the second since reset is followed by a tick, the first is not; a poll counts. -/
theorem test_reference_tick : ([0, 1].map fun m => after
    (State.withReferenceTicks { start 0xF30A with dt := 9, sinceReset := m } 2 1) fun t => t.dt == 9) = [true, false] := by
  decide
theorem witness_NopsChangeNothing :
    (0x0E1 : Addr) ≠ 0x0E0 ∧ (0x0E1 : Addr) ≠ 0x0EE ∧
      (0xF : Nibble) ∈ ([0x8, 0x9, 0xA, 0xB, 0xC, 0xD, 0xF] : List Nibble) := by decide
theorem witness_RetPopsReturnAddress :
    ((start 0).setStack [0x0ABC, 0x1000]).stack = [0x0ABC] ++ [0x1000] ∧
      ((start 0).setStack [0x0ABC, 0x1000]).inv = true ∧
      (start 0).stack = [] := by decide
theorem witness_CallPushesReturnAddress :
    (∀ d ∈ Config.stackDepth, ((start 0).setStack (List.replicate 15 0)).sp < d) ∧
      16 ∈ Config.stackDepth ∧ 16 ≤ ((start 0).setStack (List.replicate 16 0)).sp := by decide
theorem witness_AddRegSumAndCarry :
    (14 : Reg) ≠ VF ∧ 256 ≤ (0xFF : Byte).toNat + (0x01 : Byte).toNat ∧
      ¬256 ≤ (0xFF : Byte).toNat + (0x00 : Byte).toNat := by decide
theorem witness_SubDifferenceAndNoBorrow :
    (14 : Reg) ≠ VF ∧ (7 : Byte).toNat ≤ (7 : Byte).toNat ∧ ¬(8 : Byte).toNat ≤ (7 : Byte).toNat := by decide
theorem witness_SubnForEachDestination :
    (14 : Reg) = (match Config.SubnDest.y with | .y => 14 | .x => 0) ∧
      (0 : Reg) = (match Config.SubnDest.x with | .y => 14 | .x => 0) ∧ (14 : Reg) ≠ VF ∧ (0 : Reg) ≠ VF :=
  by decide
theorem witness_ShiftsByOne :
    (14 : Reg) ≠ VF ∧ (withV (start 0) [(14, 0x81)]).readV 14 = 0x81 := by decide
theorem witness_RndMasksRandomByte :
    (0xFF : Byte) = 0xFF ∧ (withInput (start 0) 0 0xA7 0).rnd = 0xA7 := by decide
theorem witness_LdBStoresDigits :
    ((start 0).setIndex 0x0FFD).index.toNat + 2 ≤ 4095 ∧ 4095 < ((start 0).setIndex 0x0FFE).index.toNat + 2 :=
  by decide
theorem witness_StRegsStoresBlock :
    ((start 0).setIndex 0x0FF0).index.toNat + (15 : Reg).val ≤ 4095 ∧
      4095 < ((start 0).setIndex 0x0FF1).index.toNat + (15 : Reg).val := by decide
theorem witness_LdRegsLoadsBlock :
    ((start 0).setIndex 0x0FFF).index.toNat + (0 : Reg).val ≤ 4095 ∧ (0 : Reg) ≤ 0 ∧ (0 : Reg) < 1 ∧
      4095 < ((start 0).setIndex 0x1000).index.toNat + (0 : Reg).val := by decide
theorem witness_DrwTogglesTargets :
    ((start 0).setIndex 0x0FFF).index.toNat + (1 : Nibble).toNat - 1 ≤ 4095 ∧ (2 : Nibble) ≠ 0 ∧
      4095 < ((start 0).setIndex 0x0FFF).index.toNat + (2 : Nibble).toNat - 1 := by decide
theorem witness_DrwTogglesTargets_collision :
    let s := withBytes ({ start 0 with fb := pixels [0] }.setIndex 0x0300) 0x300 [0x80]
    ∃ q < 2048, s.pixel q = true ∧ s.spriteHits 0 1 1 q :=
  ⟨0, by decide, by decide +kernel, 0, by decide, 0, by decide, by decide +kernel, by decide +kernel⟩
theorem witness_DrwTogglesTargets_no_collision :
    ¬∃ q < 2048, (start 0).pixel q = true ∧ (start 0).spriteHits 0 1 1 q := by
  rintro ⟨q, _, h, _⟩
  rw [State.pixel, show (start 0).fb = 0 from rfl] at h
  simp at h
theorem witness_SpriteTargetsDistinct :
    (List.replicate 15 (0xFF : Byte)).length ≤ 15 ∧ (spriteTargets 60 30 [0xC0, 0xC0]).Nodup := by decide
theorem witness_WrappedPixelsLandOnNextRow :
    pixelIndex 70 45 = 902 ∧ pixelIndex 63 31 = 2047 ∧ pixelIndex 64 31 = 0 := by decide
theorem witness_DrawTwiceRestoresDisplay :
    ∃ t u, exec (.drw 0 1 1) (start 0) = .next t ∧ t.readV 0 = (start 0).readV 0 ∧
      t.readV 1 = (start 0).readV 1 ∧
      exec (.drw 0 1 1) t = .next u :=
  ⟨_, _, rfl, by decide, by decide, rfl⟩
theorem witness_ClearThenDrawGivesPattern :
    ∃ t u, exec .cls (start 0) = .next t ∧ exec (.drw 0 1 15) t = .next u :=
  ⟨_, _, rfl, rfl⟩
theorem witness_PresentationReplicatesPixels :
    31 < 32 ∧ 63 < 64 ∧ 9 < 10 ∧
      State.presentation { start 0 with fb := pixels [2047] } 10 ((31 * 10 + 9) * 640 + 639) = 0xFFFFFF ∧
      State.presentation { start 0 with fb := pixels [2047] } 10 0 = 0x000000 := by
  decide +kernel
theorem witness_KeySkipsTestLevel :
    ((withV (start 0) [(0, 15)]).readV 0).toNat ≤ 15 ∧ 15 < ((withV (start 0) [(0, 16)]).readV 0).toNat := by decide
theorem witness_LdVxKPollsOrLoads :
    (start 0).keys = 0 ∧ (withInput (start 0) 0x8000 0 0).keys ≠ 0 := by decide
theorem witness_IllegalWordsAreFatal :
    (0x9F : Byte) ∉ ([0x9E, 0xA1] : List Byte) ∧
      (0x66 : Byte) ∉ ([0x07, 0x0A, 0x15, 0x18, 0x1E, 0x29, 0x33, 0x55, 0x65] : List Byte) := by decide

end Sys2Proof.Tests
end

/-! SUPPORT. Which instructions complete and which raise, and the proof of O19. -/

namespace Sys2Proof.Machine

/-! ### When an access, a pop or a push fails -/

/-- A read fails exactly if it takes a byte above 4095 (spec/20_memory.md R72). -/
theorem State.readBytes_eq_none {s : State} {a n : Nat} : s.readBytes a n = none ↔ 1 ≤ n ∧ 4095 < a + n - 1 := by
  rw [State.readBytes_eq, ite_eq_right_iff]
  simp only [reduceCtorEq, imp_false]
  omega

/-- A store fails exactly if it puts a byte above 4095 (spec/20_memory.md R72). -/
theorem State.writeBytes_eq_none {s : State} {a : Nat} {bs : List Byte} :
    s.writeBytes a bs = none ↔ 1 ≤ bs.length ∧ 4095 < a + bs.length - 1 := by
  rw [State.writeBytes_eq, ite_eq_right_iff, ← List.length_eq_zero_iff]
  simp only [reduceCtorEq, imp_false]
  omega

/-- A pop fails exactly if sp is 0 (spec/10_state.md R32, R34). -/
theorem State.pop_eq_none_iff_sp {s : State} : s.pop = none ↔ s.sp = 0 :=
  State.pop_eq_none.trans List.length_eq_zero_iff.symm

/-- A push fails exactly if sp has reached a STACK_DEPTH that there is (spec/10_state.md R33). -/
theorem State.push_eq_none_iff_sp {s : State} {depth : Option Nat} {v : Word} :
    s.push depth v = none ↔ ∃ d ∈ depth, d ≤ s.sp :=
  State.push_eq_none.trans (stackFull_iff ..)

/-! ### An instruction and its one check -/

/-- The instruction completes where no cause is given, and raises the cause where one is (spec/60_exceptions.md R221,
R226). -/
def CompletesUnless (i : Instr) (s : State) : Option (Word → Word → Fault) → Prop
  | none => ∃ t, exec i s = .next t
  | some cause => exec i s = raiseFatal cause i s

/-- An instruction with a check: both sides of it. -/
theorem CompletesUnless.of_check {i : Instr} {s : State} {cause : Word → Word → Fault} {failed : Prop}
    [Decidable failed] (hf : failed → exec i s = raiseFatal cause i s) (hn : ¬failed → ∃ t, exec i s = .next t) :
    CompletesUnless i s (if failed then some cause else none) := by
  split
  · exact hf ‹_›
  · exact hn ‹_›

/-- An instruction that ends in a bounds-checked access: its check fails exactly where the access does
(spec/20_memory.md R72). -/
theorem CompletesUnless.of_access {i : Instr} {s : State} {access : Option State} {failed : Prop} [Decidable failed]
    (he : exec i s = orOutOfBounds i s access) (ha : access = none ↔ failed) :
    CompletesUnless i s (if failed then some .outOfBounds else none) := by
  refine .of_check (fun h => ?_) (fun h => ?_)
  · rw [he, ha.mpr h]; rfl
  · obtain ⟨t, ht⟩ := Option.ne_none_iff_exists'.mp (mt ha.mp h)
    exact ⟨t, he.trans (orOutOfBounds_eq_next.mpr ht)⟩

/-- RET's check is the empty stack (spec/40_control_flow.md R121). -/
theorem completesUnless_ret (s : State) : CompletesUnless .ret s (Instr.ret.failingCheck s) := by
  have he : exec .ret s = execRet s := rfl
  refine .of_check (fun h => ?_) (fun h => ?_)
  · rw [he, execRet, State.pop_eq_none_iff_sp.mpr h]
  · obtain ⟨⟨v, t⟩, hp⟩ := Option.ne_none_iff_exists'.mp (mt State.pop_eq_none_iff_sp.mp h)
    exact ⟨t.setPc v, by rw [he, execRet, hp]⟩

/-- CALL's check is the full stack (spec/40_control_flow.md R123). -/
theorem completesUnless_call (nnn : Addr) (s : State) :
    CompletesUnless (.call nnn) s ((Instr.call nnn).failingCheck s) := by
  have he : exec (.call nnn) s = execCall nnn s := rfl
  refine .of_check (fun h => ?_) (fun h => ?_)
  · rw [he, execCall, State.push_eq_none_iff_sp.mpr h]
  · obtain ⟨t, hp⟩ := Option.ne_none_iff_exists'.mp (mt State.push_eq_none_iff_sp.mp h)
    exact ⟨t.setPc (addrOperand nnn), by rw [he, execCall, hp]⟩

/-- Every instruction completes unless the check that `Instr.failingCheck` gives it fails; the access of DRW and LD_REGS
is a read, that of LD_B and ST_REGS a store. -/
theorem completesUnless_failingCheck (i : Instr) (s : State) : CompletesUnless i s (i.failingCheck s) := by
  cases i with
  | ret => exact completesUnless_ret s
  | call nnn => exact completesUnless_call nnn s
  | skp x => exact .of_check (fun h => if_pos h) (fun h => ⟨_, if_neg h⟩)
  | sknp x => exact .of_check (fun h => if_pos h) (fun h => ⟨_, if_neg h⟩)
  | drw x y n => exact .of_access rfl (Option.map_eq_none_iff.trans State.readBytes_eq_none)
  | ldB x =>
    refine .of_access rfl (State.writeBytes_eq_none.trans ?_)
    rw [decimalDigits_length, State.base]
    omega
  | stRegs x =>
    refine .of_access rfl (State.writeBytes_eq_none.trans ?_)
    rw [State.registersUpTo_length, State.base]
    omega
  | ldRegs x =>
    refine .of_access rfl (Option.map_eq_none_iff.trans (State.readBytes_eq_none.trans ?_))
    rw [State.base]
    omega
  | illE x nn => rfl
  | illF x nn => rfl
  | _ => exact ⟨_, rfl⟩

/-- Settles O19, by the instruction's own check (R10, R221, R226). -/
theorem completesUnlessItsCheckFails : Obligations.CompletesUnlessItsCheckFails :=
  completesUnless_failingCheck

end Sys2Proof.Machine

/-! SUPPORT. What an instruction leaves unchanged: the frame of every named operation, the next state of every
instruction that has a check or polls, and the proofs of O22, O23 and O25. -/

namespace Sys2Proof.Machine

/-! ### The frame of each named operation -/

section
variable {ps : List Part} {s t u : State}

theorem KeepsAllBut.refl : KeepsAllBut ps s s := fun p _ => by
  cases p <;> simp [Part.Same]

/-- A list of parts that holds V allows a write to a V register; the lemmas below say the same of the other updates. -/
theorem KeepsAllBut.setV (hk : KeepsAllBut ps s t) (r : Reg) (b : Byte)
    (h : .v ∈ ps := by simp [Instr.mayWrite]) : KeepsAllBut ps s (t.setV r b) := fun p hp => by
  cases p with
  | v => exact absurd h hp
  | _ => exact hk _ hp

theorem KeepsAllBut.setRegistersFrom (hk : KeepsAllBut ps s t) (k : Nat) (bs : List Byte)
    (h : .v ∈ ps := by simp [Instr.mayWrite]) : KeepsAllBut ps s (t.setRegistersFrom k bs) := fun p hp => by
  cases p with
  | v => exact absurd h hp
  | _ => exact hk _ hp

theorem KeepsAllBut.setPc (hk : KeepsAllBut ps s t) (a : Word)
    (h : .pc ∈ ps := by simp [Instr.mayWrite]) : KeepsAllBut ps s (t.setPc a) := fun p hp => by
  cases p with
  | pc => exact absurd h hp
  | _ => exact hk _ hp

theorem KeepsAllBut.setIndex (hk : KeepsAllBut ps s t) (a : Word)
    (h : .index ∈ ps := by simp [Instr.mayWrite]) : KeepsAllBut ps s (t.setIndex a) := fun p hp => by
  cases p with
  | index => exact absurd h hp
  | _ => exact hk _ hp

theorem KeepsAllBut.setDt (hk : KeepsAllBut ps s t) (b : Byte)
    (h : .dt ∈ ps := by simp [Instr.mayWrite]) : KeepsAllBut ps s (t.setDt b) := fun p hp => by
  cases p with
  | dt => exact absurd h hp
  | _ => exact hk _ hp

theorem KeepsAllBut.setSt (hk : KeepsAllBut ps s t) (b : Byte)
    (h : .st ∈ ps := by simp [Instr.mayWrite]) : KeepsAllBut ps s (t.setSt b) := fun p hp => by
  cases p with
  | st => exact absurd h hp
  | _ => exact hk _ hp

theorem KeepsAllBut.setFb (hk : KeepsAllBut ps s t) (d : BitVec 2048)
    (h : .fb ∈ ps := by simp [Instr.mayWrite]) : KeepsAllBut ps s (t.setFb d) := fun p hp => by
  cases p with
  | fb => exact absurd h hp
  | _ => exact hk _ hp

theorem KeepsAllBut.setMem (hk : KeepsAllBut ps s t) (m : Memory)
    (h : .mem ∈ ps := by simp [Instr.mayWrite]) : KeepsAllBut ps s (t.setMem m) := fun p hp => by
  cases p with
  | mem => exact absurd h hp
  | _ => exact hk _ hp

theorem KeepsAllBut.setStack (hk : KeepsAllBut ps s t) (l : List Word)
    (h : .stack ∈ ps := by simp [Instr.mayWrite]) : KeepsAllBut ps s (t.setStack l) := fun p hp => by
  cases p with
  | stack => exact absurd h hp
  | _ => exact hk _ hp

theorem KeepsAllBut.skipIf (hk : KeepsAllBut ps s t) (c : Bool)
    (h : .pc ∈ ps := by simp [Instr.mayWrite]) : KeepsAllBut ps s (t.skipIf c) := hk.setPc _ h

theorem KeepsAllBut.setResultAndFlag (hk : KeepsAllBut ps s t) (d : Reg) (b : Byte) (c : Bool)
    (h : .v ∈ ps := by simp [Instr.mayWrite]) : KeepsAllBut ps s (t.setResultAndFlag d b c) :=
  (hk.setV d b h).setV VF _ h

end

/-! ### The next state of each instruction that has a check or polls -/

section
variable {s t : State}

/-- RET ends in a next state exactly if there is an entry to pop (spec/40_control_flow.md R121). -/
theorem exec_ret_eq_next :
    exec .ret s = .next t ↔ ∃ l v, s.stack = l ++ [v] ∧ t = (s.setStack l).setPc v := by
  change execRet s = .next t ↔ _
  unfold execRet
  cases hp : s.pop with
  | none => simp [State.pop_eq_none.mp hp]
  | some p =>
    obtain ⟨l, hl, hu⟩ := State.pop_eq_some.mp hp
    simp only [hl, hu, Host.Outcome.next.injEq]
    constructor
    · rintro rfl; exact ⟨l, p.1, rfl, rfl⟩
    · rintro ⟨l', v, h, rfl⟩
      obtain ⟨rfl, hv⟩ := List.append_inj' h rfl
      rw [List.singleton_inj.mp hv]

/-- CALL ends in a next state exactly if the stack is not full (spec/40_control_flow.md R123). -/
theorem exec_call_eq_next {nnn : Addr} :
    exec (.call nnn) s = .next t ↔
      stackFull Config.stackDepth s.sp = false ∧ t = (s.setStack (s.stack ++ [s.pc])).setPc (addrOperand nnn) := by
  change execCall nnn s = .next t ↔ _
  unfold execCall
  cases hp : s.push Config.stackDepth s.pc with
  | none => simp [State.push_eq_none.mp hp]
  | some u =>
    obtain ⟨hf, rfl⟩ := State.push_eq_some.mp hp
    simp [hf, eq_comm]

/-- DRW ends in a next state exactly if its rows can be read (spec/43_display.md R191). -/
theorem exec_drw_eq_next {x y : Reg} {n : Nibble} :
    exec (.drw x y n) s = .next t ↔ ∃ rows, s.readBytes s.base n.toNat = some rows ∧ t = s.draw x y rows := by
  change execDrw x y n s = .next t ↔ _
  rw [execDrw, orOutOfBounds_eq_next, Option.map_eq_some_iff]
  simp only [eq_comm (a := t)]

/-- A key number above 15 is fatal, any other goes on (spec/44_keypad_timers.md R200, R201). -/
theorem ite_badKeyIndex_eq_next {i : Instr} {b : Byte} {u : State} :
    (if 15 < b.toNat then raiseFatal .badKeyIndex i s else .next u) = .next t ↔ b.toNat ≤ 15 ∧ t = u := by
  split
  · simp only [raiseFatal_ne_next, false_iff]; omega
  · simp only [Host.Outcome.next.injEq, eq_comm (a := t)]
    exact ⟨fun h => ⟨by omega, h⟩, And.right⟩

/-- SKP ends in a next state exactly if VX numbers a key (spec/44_keypad_timers.md R200). -/
theorem exec_skp_eq_next {x : Reg} :
    exec (.skp x) s = .next t ↔
      (s.readV x).toNat ≤ 15 ∧ t = s.skipIf (s.keys.getLsbD (s.readV x).toNat) :=
  ite_badKeyIndex_eq_next

/-- SKNP ends in a next state exactly if VX numbers a key (spec/44_keypad_timers.md R201). -/
theorem exec_sknp_eq_next {x : Reg} :
    exec (.sknp x) s = .next t ↔
      (s.readV x).toNat ≤ 15 ∧ t = s.skipIf (!s.keys.getLsbD (s.readV x).toNat) :=
  ite_badKeyIndex_eq_next

/-- LD_VX_K goes back to its own address where no key is held, and else loads the least key held
(spec/44_keypad_timers.md R202). -/
theorem exec_ldVxK_eq_next {x : Reg} :
    exec (.ldVxK x) s = .next t ↔
      s.keys = 0 ∧ t = s.setPc (s.pc - 2) ∨
        ∃ k, lowestKeyHeld s.keys = some k ∧ t = s.setV x (BitVec.ofNat 8 k) := by
  change execLdVxK x s = .next t ↔ _
  rw [execLdVxK, Host.Outcome.next.injEq, ← lowestKeyHeld_eq_none, eq_comm (b := t)]
  cases lowestKeyHeld s.keys <;> simp

/-- A store of at least one byte, up to the last one in memory, seeds its bytes. -/
theorem State.writeBytes_eq_some {a : Nat} {bs : List Byte} (hb : bs ≠ []) :
    s.writeBytes a bs = some t ↔ a + bs.length ≤ 4096 ∧ t = s.setMem (s.mem.seed a bs) := by
  rw [State.writeBytes_eq]
  simp [hb, eq_comm]

/-- LD_B ends in a next state exactly if its three bytes are in memory (spec/42_index_memory.md R173). -/
theorem exec_ldB_eq_next {x : Reg} :
    exec (.ldB x) s = .next t ↔
      s.base + 3 ≤ 4096 ∧ t = s.setMem (s.mem.seed s.base (decimalDigits (s.readV x))) := by
  change execLdB x s = .next t ↔ _
  rw [execLdB, orOutOfBounds_eq_next, State.writeBytes_eq_some (by simp [decimalDigits]), decimalDigits_length]

/-- ST_REGS ends in a next state exactly if its X + 1 bytes are in memory (spec/42_index_memory.md R174). -/
theorem exec_stRegs_eq_next {x : Reg} :
    exec (.stRegs x) s = .next t ↔
      s.base + (x.val + 1) ≤ 4096 ∧ t = s.setMem (s.mem.seed s.base (s.registersUpTo x)) := by
  change execStRegs x s = .next t ↔ _
  rw [execStRegs, orOutOfBounds_eq_next, State.writeBytes_eq_some, State.registersUpTo_length]
  exact List.ne_nil_of_length_eq_add_one (State.registersUpTo_length s x)

/-- LD_REGS ends in a next state exactly if its X + 1 bytes can be read (spec/42_index_memory.md R175). -/
theorem exec_ldRegs_eq_next {x : Reg} :
    exec (.ldRegs x) s = .next t ↔
      ∃ bs, s.readBytes s.base (x.val + 1) = some bs ∧ t = s.setRegistersFrom 0 bs := by
  change execLdRegs x s = .next t ↔ _
  rw [execLdRegs, orOutOfBounds_eq_next, Option.map_eq_some_iff]
  simp only [eq_comm (a := t)]

/-- The unassigned words of category E never complete (spec/44_keypad_timers.md R206). -/
theorem exec_illE_ne_next {x : Reg} {nn : Byte} : exec (.illE x nn) s ≠ .next t := nofun

/-- The unassigned words of category F never complete (spec/44_keypad_timers.md R207). -/
theorem exec_illF_ne_next {x : Reg} {nn : Byte} : exec (.illF x nn) s ≠ .next t := nofun

end

/-! ### The parts that stay -/

/-- Settles O22, from the next state of each instruction by the frames of the named operations it is made of (R23, R29,
R33, R34, R39, R40, R41, R61). -/
theorem onlyListedPartsChange : Obligations.OnlyListedPartsChange := by
  intro i s t h
  cases i with
  | cls => cases h; exact KeepsAllBut.refl.setFb _
  | ret =>
    obtain ⟨l, v, -, rfl⟩ := exec_ret_eq_next.mp h
    exact (KeepsAllBut.refl.setStack l).setPc v
  | call nnn =>
    obtain ⟨-, rfl⟩ := exec_call_eq_next.mp h
    exact (KeepsAllBut.refl.setStack _).setPc _
  | nop0 nnn | nop8 x y n => cases h; exact .refl
  | jp nnn | jpV0 nnn => cases h; exact KeepsAllBut.refl.setPc _
  | seImm x nn | sneImm x nn | seReg x y | sneReg x y => cases h; exact KeepsAllBut.refl.skipIf _
  | ldImm x nn | addImm x nn | ldReg x y | orReg x y | andReg x y | xorReg x y | rnd x nn | ldVxDt x =>
    cases h; exact KeepsAllBut.refl.setV _ _
  | addReg x y | sub x y | shr x y | subn x y | shl x y => cases h; exact KeepsAllBut.refl.setResultAndFlag _ _ _
  | ldI nnn | ldF x => cases h; exact KeepsAllBut.refl.setIndex _
  | drw x y n =>
    obtain ⟨rows, -, rfl⟩ := exec_drw_eq_next.mp h
    exact (KeepsAllBut.refl.setFb _).setV VF _
  | skp x =>
    obtain ⟨-, rfl⟩ := exec_skp_eq_next.mp h
    exact KeepsAllBut.refl.skipIf _
  | sknp x =>
    obtain ⟨-, rfl⟩ := exec_sknp_eq_next.mp h
    exact KeepsAllBut.refl.skipIf _
  | illE x nn => exact absurd h exec_illE_ne_next
  | illF x nn => exact absurd h exec_illF_ne_next
  | ldVxK x =>
    obtain ⟨-, rfl⟩ | ⟨k, -, rfl⟩ := exec_ldVxK_eq_next.mp h
    · exact KeepsAllBut.refl.setPc _
    · exact KeepsAllBut.refl.setV _ _
  | ldDtVx x => cases h; exact KeepsAllBut.refl.setDt _
  | ldStVx x => cases h; exact KeepsAllBut.refl.setSt _
  | addI x =>
    cases h
    split
    · exact (KeepsAllBut.refl.setIndex _).setV VF 1
    · exact KeepsAllBut.refl.setIndex _
  | ldB x =>
    obtain ⟨-, rfl⟩ := exec_ldB_eq_next.mp h
    exact KeepsAllBut.refl.setMem _
  | stRegs x =>
    obtain ⟨-, rfl⟩ := exec_stRegs_eq_next.mp h
    exact KeepsAllBut.refl.setMem _
  | ldRegs x =>
    obtain ⟨bs, -, rfl⟩ := exec_ldRegs_eq_next.mp h
    exact KeepsAllBut.refl.setRegistersFrom _ _

/-! ### The registers that stay, and VF -/

section
variable {rs : List Reg} {s t : State}

theorem KeepsRegsBut.refl : KeepsRegsBut rs s s := fun _ _ => rfl

/-- A list of registers that holds r allows a write to r. -/
theorem KeepsRegsBut.setV (hk : KeepsRegsBut rs s t) (r : Reg) (b : Byte)
    (h : r ∈ rs := by simp [Instr.regsWritten]) : KeepsRegsBut rs s (t.setV r b) := fun q hq => by
  rw [State.readV_setV, if_neg (ne_of_mem_of_not_mem h hq).symm, hk q hq]

theorem KeepsRegsBut.setResultAndFlag (hk : KeepsRegsBut rs s t) (d : Reg) (b : Byte) (c : Bool)
    (h : d ∈ rs := by simp [Instr.regsWritten]) (hf : VF ∈ rs := by simp [Instr.regsWritten]) :
    KeepsRegsBut rs s (t.setResultAndFlag d b c) := (hk.setV d b h).setV VF _ hf

/-- Loading a block from V0 on leaves the registers above it (spec/42_index_memory.md R175). -/
theorem State.readV_setRegistersFrom_zero_of_le (s : State) {bs : List Byte} {q : Reg} (hb : bs.length ≤ q.val) :
    (s.setRegistersFrom 0 bs).readV q = s.readV q := by
  rw [State.readV_setRegistersFrom _ _ _ _ (by omega), if_neg (by omega)]

theorem State.readBytes_length {a n : Nat} {bs : List Byte} (h : s.readBytes a n = some bs) : bs.length = n := by
  rw [State.readBytes_eq] at h
  split at h
  · cases h; simp
  · cases h

theorem flagByte_eq_zero_or_one (c : Bool) : flagByte c = 0 ∨ flagByte c = 1 := by
  cases c
  · exact .inl rfl
  · exact .inr rfl

/-- VF after a result and its flag, whatever the destination (spec/41_alu.md R142). -/
theorem State.readV_VF_setResultAndFlag (s : State) (d : Reg) (b : Byte) (c : Bool) :
    (s.setResultAndFlag d b c).readV VF = flagByte c := by
  rw [State.readV_setResultAndFlag, if_pos rfl]

/-- VF after a draw is a flag (spec/43_display.md R191). -/
theorem State.readV_VF_draw (s : State) (x y : Reg) (rows : List Byte) :
    ∃ c, (s.draw x y rows).readV VF = flagByte c :=
  ⟨_, by rw [State.draw, State.readV_setV, if_pos rfl]⟩

end

/-- Settles O23, by the writes of each instruction that writes V registers; the others leave V whole by O22 (R20, R23,
R150). -/
theorem onlyListedRegistersChange : Obligations.OnlyListedRegistersChange := by
  intro i s t h
  cases i with
  | ldImm x nn | addImm x nn | ldReg x y | orReg x y | andReg x y | xorReg x y | rnd x nn | ldVxDt x =>
    cases h; exact KeepsRegsBut.refl.setV _ _
  | addReg x y | sub x y | shr x y | shl x y => cases h; exact KeepsRegsBut.refl.setResultAndFlag _ _ _
  | subn x y =>
    cases h
    exact KeepsRegsBut.refl.setResultAndFlag _ _ _ List.mem_cons_self (List.mem_cons_of_mem _ List.mem_cons_self)
  | drw x y n =>
    obtain ⟨rows, -, rfl⟩ := exec_drw_eq_next.mp h
    exact KeepsRegsBut.setV (t := s.setFb _) KeepsRegsBut.refl VF _
  | addI x =>
    cases h
    split
    · exact KeepsRegsBut.setV (t := s.setIndex _) KeepsRegsBut.refl VF _
    · exact KeepsRegsBut.refl
  | ldVxK x =>
    obtain ⟨-, rfl⟩ | ⟨k, -, rfl⟩ := exec_ldVxK_eq_next.mp h
    · exact KeepsRegsBut.refl
    · exact KeepsRegsBut.refl.setV _ _
  | ldRegs x =>
    obtain ⟨bs, hb, rfl⟩ := exec_ldRegs_eq_next.mp h
    intro r hr
    have hx : x < r := by simpa [Instr.regsWritten] using hr
    exact s.readV_setRegistersFrom_zero_of_le (by rw [State.readBytes_length hb]; exact hx)
  | _ => exact fun r _ => onlyListedPartsChange _ _ _ h .v (by simp [Instr.mayWrite]) r

/-- Settles O25: VF is the last register that a flag writer writes, and what it gets is a flag (R22, R23, R142). -/
theorem flagWritersLeaveZeroOrOne : Obligations.FlagWritersLeaveZeroOrOne := by
  refine ⟨fun x y n i s t hi h => ?_, fun x s t h => ?_⟩
  · suffices ∃ c, t.readV VF = flagByte c by
      obtain ⟨c, hc⟩ := this
      exact hc ▸ flagByte_eq_zero_or_one c
    simp only [List.mem_cons, List.not_mem_nil, or_false] at hi
    rcases hi with rfl | rfl | rfl | rfl | rfl | rfl
    pick_goal 6
    · obtain ⟨rows, -, rfl⟩ := exec_drw_eq_next.mp h
      exact s.readV_VF_draw x y rows
    all_goals cases h; exact ⟨_, State.readV_VF_setResultAndFlag ..⟩
  · cases h
    split
    · exact .inr (by rw [State.readV_setV, if_pos rfl])
    · exact .inl rfl

end Sys2Proof.Machine

/-! SUPPORT. pc after a step and the invariant of the machine, with the proofs of O13 and O14. -/

namespace Sys2Proof.Machine

/-! ### pc -/

/-- pc after the fetch increment and a skip on a condition (spec/10_state.md R25). -/
theorem State.skipIf_advance_pc (s : State) {c : Bool} {p : Prop} [Decidable p] (h : c = true ↔ p) :
    (s.advance.skipIf c).pc = if p then s.pc + 4 else s.pc + 2 := by
  rw [State.skipIf_eq, State.setPc_pc, State.advance_pc, BitVec.add_assoc]
  simp only [h]
  rfl

/-- pc after the fetch increment and a skip on the opposite of a condition (spec/10_state.md R25). -/
theorem State.skipIf_advance_pc_of_not (s : State) {c : Bool} {p : Prop} [Decidable p] (h : c = true ↔ ¬p) :
    (s.advance.skipIf c).pc = if p then s.pc + 2 else s.pc + 4 := by
  rw [s.skipIf_advance_pc h, ite_not]

/-- NNN plus a byte does not leave the word (spec/40_control_flow.md R128). -/
theorem addrOperand_add_byteOperand_toNat (nnn : Addr) (b : Byte) :
    (addrOperand nnn + byteOperand b).toNat = nnn.toNat + b.toNat := by
  have := nnn.isLt
  have := b.isLt
  rw [BitVec.toNat_add, addrOperand_toNat, byteOperand_toNat]
  omega

/-- LD_VX_K goes back to its own address exactly if no key is held (spec/44_keypad_timers.md R202). -/
theorem exec_ldVxK_pc {x : Reg} {s t : State} (h : exec (.ldVxK x) s = .next t) :
    t.pc = if s.keys = 0 then s.pc - 2 else s.pc := by
  obtain ⟨hk, rfl⟩ | ⟨k, hk, rfl⟩ := exec_ldVxK_eq_next.mp h
  · rw [if_pos hk]; rfl
  · have h0 : s.keys ≠ 0 := fun h0 => by simp [lowestKeyHeld_eq_none.mpr h0] at hk
    rw [if_neg h0]; rfl

/-- Settles O13, by the writers of pc; every other instruction leaves the fetch increment by O22 (R25). -/
theorem pcAfterStep : Obligations.PcAfterStep := by
  intro s s' w hf hs
  obtain ⟨-, w', t, hw, hx, rfl⟩ := step_eq_next.mp hs
  obtain rfl : w' = w := Option.some.inj (hw.symm.trans hf)
  rw [State.boundary_pc, State.boundary_stack]
  generalize decodeWord w' = i at hx ⊢
  cases i with
  | jp nnn => cases hx; exact addrOperand_toNat nnn
  | call nnn =>
    obtain ⟨-, rfl⟩ := exec_call_eq_next.mp hx
    exact ⟨addrOperand_toNat nnn, rfl⟩
  | ret =>
    obtain ⟨l, v, hl, rfl⟩ := exec_ret_eq_next.mp hx
    exact hl
  | jpV0 nnn => cases hx; exact addrOperand_add_byteOperand_toNat nnn _
  | seImm x nn | seReg x y => cases hx; exact s.skipIf_advance_pc decide_eq_true_iff
  | sneImm x nn | sneReg x y => cases hx; exact s.skipIf_advance_pc_of_not decide_eq_true_iff
  | skp x =>
    obtain ⟨-, rfl⟩ := exec_skp_eq_next.mp hx
    exact s.skipIf_advance_pc Iff.rfl
  | sknp x =>
    obtain ⟨-, rfl⟩ := exec_sknp_eq_next.mp hx
    exact s.skipIf_advance_pc_of_not (by simp only [Bool.not_eq_true', Bool.not_eq_true]; rfl)
  | ldVxK x =>
    have hk : s.advance.keys = s.keys := rfl
    rw [exec_ldVxK_pc hx, hk, State.advance_pc, BitVec.add_sub_cancel]
  | _ => exact onlyListedPartsChange _ _ _ hx .pc (by simp [Instr.mayWrite])

/-! ### Memory and the stack -/

/-- The memory an instruction leaves: the bytes it stores, if any, seeded from I on below 4096 (spec/20_memory.md R61,
R73). -/
theorem exec_mem {i : Instr} {s t : State} (h : exec i s = .next t) :
    ∃ bs, bs.length = i.bytesStored ∧ (bs ≠ [] → s.base + bs.length ≤ 4096) ∧ t.mem = s.mem.seed s.base bs := by
  cases i with
  | ldB x =>
    obtain ⟨hb, rfl⟩ := exec_ldB_eq_next.mp h
    exact ⟨_, decimalDigits_length _, fun _ => hb, rfl⟩
  | stRegs x =>
    obtain ⟨hb, rfl⟩ := exec_stRegs_eq_next.mp h
    exact ⟨_, s.registersUpTo_length x, fun _ => by rwa [State.registersUpTo_length], rfl⟩
  | ret =>
    obtain ⟨l, v, -, rfl⟩ := exec_ret_eq_next.mp h
    exact ⟨[], rfl, nofun, rfl⟩
  | call nnn =>
    obtain ⟨-, rfl⟩ := exec_call_eq_next.mp h
    exact ⟨[], rfl, nofun, rfl⟩
  | drw x y n =>
    obtain ⟨rows, -, rfl⟩ := exec_drw_eq_next.mp h
    exact ⟨[], rfl, nofun, rfl⟩
  | skp x =>
    obtain ⟨-, rfl⟩ := exec_skp_eq_next.mp h
    exact ⟨[], rfl, nofun, rfl⟩
  | sknp x =>
    obtain ⟨-, rfl⟩ := exec_sknp_eq_next.mp h
    exact ⟨[], rfl, nofun, rfl⟩
  | ldRegs x =>
    obtain ⟨bs, -, rfl⟩ := exec_ldRegs_eq_next.mp h
    exact ⟨[], rfl, nofun, rfl⟩
  | ldVxK x => obtain ⟨-, rfl⟩ | ⟨k, -, rfl⟩ := exec_ldVxK_eq_next.mp h <;> exact ⟨[], rfl, nofun, rfl⟩
  | addI x => cases h; split <;> exact ⟨[], rfl, nofun, rfl⟩
  | illE x nn => exact absurd h exec_illE_ne_next
  | illF x nn => exact absurd h exec_illF_ne_next
  | _ => cases h; exact ⟨[], rfl, nofun, rfl⟩

/-- The stack an instruction leaves: the same, without its last entry, or with pc pushed where it is not full
(spec/10_state.md R33, R34). -/
theorem exec_stack {i : Instr} {s t : State} (h : exec i s = .next t) :
    t.stack = s.stack ∨ (∃ v, s.stack = t.stack ++ [v]) ∨
      stackFull Config.stackDepth s.sp = false ∧ t.stack = s.stack ++ [s.pc] := by
  cases i with
  | ret =>
    obtain ⟨l, v, hl, rfl⟩ := exec_ret_eq_next.mp h
    exact .inr (.inl ⟨v, hl⟩)
  | call nnn =>
    obtain ⟨hf, rfl⟩ := exec_call_eq_next.mp h
    exact .inr (.inr ⟨hf, rfl⟩)
  | _ => exact .inl (onlyListedPartsChange _ _ _ h .stack (by simp [Instr.mayWrite]))

/-- No instruction writes the halt and fault registers (spec/10_state.md R46). -/
theorem exec_halt {i : Instr} {s t : State} (h : exec i s = .next t) : t.halt = s.halt :=
  onlyListedPartsChange _ _ _ h .halt (by cases i <;> simp [Instr.mayWrite])

/-! ### The invariant -/

theorem State.inv_iff {s : State} :
    s.inv = true ↔ s.mem.wf = true ∧ stackWithin Config.stackDepth s.sp = true ∧ (∀ a ∈ s.stack, a.toNat ≤ 0x1000) ∧
      s.pc.toNat ≤ 0x10FE ∧ s.halt.halted = false := by
  simp [State.inv, and_assoc]

theorem stackWithin_mono {depth : Option Nat} {m n : Nat} (hmn : m ≤ n) (h : stackWithin depth n = true) :
    stackWithin depth m = true := by
  cases depth with
  | none => rfl
  | some d =>
    simp only [stackWithin, decide_eq_true_eq] at h ⊢
    omega

/-- A stack that is not full has room for one more entry (spec/10_state.md R32, R33). -/
theorem stackWithin_succ_of_not_full {depth : Option Nat} {n : Nat} (h : stackFull depth n = false) :
    stackWithin depth (n + 1) = true := by
  cases depth with
  | none => rfl
  | some d =>
    simp only [stackFull, stackWithin, decide_eq_false_iff_not, decide_eq_true_eq] at h ⊢
    omega

/-- Memory stays canonical (log entry 20). -/
theorem exec_keeps_wf {i : Instr} {s t : State} (h : exec i s = .next t) (hm : s.mem.wf = true) :
    t.mem.wf = true := by
  obtain ⟨bs, -, hb, hmem⟩ := exec_mem h
  rw [hmem]
  cases bs with
  | nil => exact hm
  | cons b bs => exact Memory.wf_seed (hb nofun) hm

/-- The stack stays within STACK_DEPTH, and its entries at most 0x1000 if the pushed pc is (spec/10_state.md R32;
spec/40_control_flow.md R121). -/
theorem exec_keeps_stack {i : Instr} {s t : State} (h : exec i s = .next t) (hpc : s.pc.toNat ≤ 0x1000)
    (hw : stackWithin Config.stackDepth s.sp = true) (ha : ∀ a ∈ s.stack, a.toNat ≤ 0x1000) :
    stackWithin Config.stackDepth t.sp = true ∧ ∀ a ∈ t.stack, a.toNat ≤ 0x1000 := by
  rw [State.sp_eq] at hw ⊢
  rcases exec_stack h with he | ⟨v, he⟩ | ⟨hf, he⟩
  · rw [he]; exact ⟨hw, ha⟩
  · rw [he] at hw ha
    exact ⟨stackWithin_mono (by simp) hw, fun a h' => ha a (List.mem_append_left _ h')⟩
  · rw [he, List.length_append]
    refine ⟨stackWithin_succ_of_not_full hf, fun a h' => ?_⟩
    rcases List.mem_append.mp h' with h' | h'
    · exact ha a h'
    · rw [List.mem_singleton.mp h']; exact hpc

/-- A word is fetched only where both its bytes are in memory (spec/70_reset_and_hazards.md R255). -/
theorem State.pc_lt_of_fetch {s : State} {w : Word} (h : s.fetch = some w) : s.pc.toNat + 1 ≤ 4095 := by
  by_contra hp
  rw [State.fetch_eq, if_neg hp] at h
  cases h

/-- pc after a step is at most 0x10FE, the highest target of JP_V0, where the return addresses are at most 0x1000
(spec/10_state.md R27). -/
theorem step_pc_le {s s' : State} (h : step s = .next s') (ha : ∀ a ∈ s.stack, a.toNat ≤ 0x1000) :
    s'.pc.toNat ≤ 0x10FE := by
  obtain ⟨-, w, -, hf, -⟩ := step_eq_next.mp h
  have hp := State.pc_lt_of_fetch hf
  have h2 : (s.pc + 2).toNat = s.pc.toNat + 2 := by bv_omega
  have h4 : (s.pc + 4).toNat = s.pc.toNat + 4 := by bv_omega
  have hpc := pcAfterStep s s' w hf h
  generalize decodeWord w = i at hpc
  cases i with
  | jp nnn =>
    have := nnn.isLt
    have hpc : s'.pc.toNat = nnn.toNat := hpc
    omega
  | call nnn =>
    have := nnn.isLt
    have hpc := hpc.1
    omega
  | ret =>
    have := ha s'.pc (by rw [hpc]; simp)
    omega
  | jpV0 nnn =>
    have := nnn.isLt
    have := (s.readV 0).isLt
    have hpc : s'.pc.toNat = nnn.toNat + (s.readV 0).toNat := hpc
    omega
  | seImm x nn | sneImm x nn | seReg x y | sneReg x y | skp x | sknp x | ldVxK x =>
    rw [hpc]; split <;> omega
  | _ => rw [hpc]; omega

/-- Settles O14: the instruction keeps memory, the stack and the halt registers, the bound on pc is that of O13, and the
boundary changes none of them. -/
theorem stepKeepsInvariant : Obligations.StepKeepsInvariant := by
  intro s s' hi hs
  obtain ⟨hm, hw, ha, -, hh⟩ := State.inv_iff.mp hi
  obtain ⟨-, w, t, hf, hx, rfl⟩ := step_eq_next.mp hs
  have hp := State.pc_lt_of_fetch hf
  have hpc : s.advance.pc.toNat ≤ 0x1000 := by rw [State.advance_pc]; bv_omega
  obtain ⟨hw', ha'⟩ := exec_keeps_stack hx hpc hw ha
  have hwf : t.mem.wf = true := exec_keeps_wf hx hm
  have hhalt : t.halt.halted = false := by rw [exec_halt hx]; exact hh
  exact State.inv_iff.mpr ⟨hwf, hw', ha', step_pc_le hs ha, hhalt⟩

end Sys2Proof.Machine

/-! SUPPORT. What an instruction does not see, with the proofs of O26, O27, O28 and O29. -/

namespace Sys2Proof.Machine

/-! ### Changes that an instruction does not see -/

/-- A change of the parts that an instruction may be unable to see: ST, the display, the halt and fault registers, the
inputs and the counts of steps (spec/10_state.md R39, R41, R44, R45, R46). A part that is not named stays. -/
structure UnseenChange where
  st : Byte → Byte := id
  fb : BitVec 2048 → BitVec 2048 := id
  halt : HaltRegs → HaltRegs := id
  inputs : List HostInput → List HostInput := id
  drawn : Nat → Nat := id
  sinceReset : Nat → Nat := id

/-- The state after the change. -/
def UnseenChange.apply (c : UnseenChange) (s : State) : State :=
  { s with st := c.st s.st, fb := c.fb s.fb, halt := c.halt s.halt, inputs := c.inputs s.inputs,
           drawn := c.drawn s.drawn, sinceReset := c.sinceReset s.sinceReset }

section
variable (c : UnseenChange) (s : State)

theorem UnseenChange.orOutOfBounds_apply (i : Instr) (o : Option State) :
    orOutOfBounds i (c.apply s) (o.map c.apply) = onNext c.apply (orOutOfBounds i s o) := by
  cases o <;> rfl

theorem UnseenChange.readBytes_apply (a n : Nat) : (c.apply s).readBytes a n = s.readBytes a n :=
  State.readBytes_congr (s := s) (t := c.apply s) rfl a n

theorem UnseenChange.writeBytes_apply (a : Nat) (bs : List Byte) :
    (c.apply s).writeBytes a bs = (s.writeBytes a bs).map c.apply := by
  rw [State.writeBytes_eq, State.writeBytes_eq, apply_ite (Option.map c.apply)]
  rfl

theorem UnseenChange.pop_apply : (c.apply s).pop = s.pop.map fun p => (p.1, c.apply p.2) := by
  have hs : (c.apply s).stack = s.stack := rfl
  unfold State.pop
  rw [hs]
  cases s.stack.getLast? <;> rfl

theorem UnseenChange.push_apply (depth : Option Nat) (v : Word) :
    (c.apply s).push depth v = (s.push depth v).map c.apply := by
  unfold State.push
  rw [apply_ite (Option.map c.apply)]
  rfl

theorem UnseenChange.apply_setFb (h : c.fb = id) (d : BitVec 2048) :
    (c.apply s).setFb d = c.apply (s.setFb d) := by
  simp only [UnseenChange.apply, State.setFb, h, id]

theorem UnseenChange.apply_setSt (h : c.st = id) (b : Byte) : (c.apply s).setSt b = c.apply (s.setSt b) := by
  simp only [UnseenChange.apply, State.setSt, h, id]

theorem UnseenChange.apply_draw (h : c.fb = id) (x y : Reg) (rows : List Byte) :
    (c.apply s).draw x y rows = c.apply (s.draw x y rows) := by
  have hfb : (c.apply s).fb = s.fb := congrFun h s.fb
  simp only [State.draw, hfb, c.apply_setFb s h]
  rfl

/-- A skip by a key, or its fault, after a change that leaves keys as seen. -/
theorem UnseenChange.ite_badKeyIndex_apply (i : Instr) (b : Byte) (t : State) :
    (if 15 < b.toNat then raiseFatal .badKeyIndex i (c.apply s) else .next (c.apply t)) =
      onNext c.apply (if 15 < b.toNat then raiseFatal .badKeyIndex i s else .next t) := by
  split <;> rfl

/-- An instruction does the same after a change that it does not see, and leaves the change: LD_ST_VX where ST stays,
CLS and DRW where the display stays, the samplers where what they sample stays. -/
theorem UnseenChange.exec_apply (i : Instr) (hst : ∀ x, i = .ldStVx x → c.st = id)
    (hcls : i = .cls → c.fb = id) (hdrw : ∀ x y n, i = .drw x y n → c.fb = id)
    (hkeys : i.samplesKeys = true → (c.apply s).keys = s.keys)
    (hrnd : i.consumesRnd = true → (c.apply s).rnd = s.rnd) :
    exec i (c.apply s) = onNext c.apply (exec i s) := by
  cases i with
  | cls => exact congrArg Host.Outcome.next (c.apply_setFb s (hcls rfl) 0)
  | ldStVx x => exact congrArg Host.Outcome.next (c.apply_setSt s (hst x rfl) (s.readV x))
  | ret =>
    change execRet (c.apply s) = onNext c.apply (execRet s)
    unfold execRet
    rw [c.pop_apply]
    cases s.pop <;> rfl
  | call nnn =>
    change execCall nnn (c.apply s) = onNext c.apply (execCall nnn s)
    have hpc : (c.apply s).pc = s.pc := rfl
    unfold execCall
    rw [c.push_apply, hpc]
    cases s.push Config.stackDepth s.pc <;> rfl
  | rnd x nn =>
    have hr : (c.apply s).rnd = s.rnd := hrnd rfl
    change execRnd x nn (c.apply s) = onNext c.apply (execRnd x nn s)
    rw [execRnd, hr]
    rfl
  | skp x =>
    have hk : (c.apply s).keys = s.keys := hkeys rfl
    change execSkp x (c.apply s) = onNext c.apply (execSkp x s)
    rw [execSkp, hk]
    exact c.ite_badKeyIndex_apply s _ (s.readV x) (s.skipIf _)
  | sknp x =>
    have hk : (c.apply s).keys = s.keys := hkeys rfl
    change execSknp x (c.apply s) = onNext c.apply (execSknp x s)
    rw [execSknp, hk]
    exact c.ite_badKeyIndex_apply s _ (s.readV x) (s.skipIf _)
  | ldVxK x =>
    have hk : (c.apply s).keys = s.keys := hkeys rfl
    change execLdVxK x (c.apply s) = onNext c.apply (execLdVxK x s)
    rw [execLdVxK, execLdVxK, hk]
    cases lowestKeyHeld s.keys <;> rfl
  | addI x =>
    change execAddI x (c.apply s) = onNext c.apply (execAddI x s)
    simp only [execAddI, onNext, apply_ite c.apply]
    rfl
  | drw x y n =>
    change execDrw x y n (c.apply s) = onNext c.apply (execDrw x y n s)
    rw [execDrw, execDrw, c.readBytes_apply, ← c.orOutOfBounds_apply, Option.map_map]
    simp only [c.apply_draw s (hdrw x y n rfl)]
    rfl
  | ldRegs x =>
    change execLdRegs x (c.apply s) = onNext c.apply (execLdRegs x s)
    rw [execLdRegs, execLdRegs, c.readBytes_apply, ← c.orOutOfBounds_apply, Option.map_map]
    rfl
  | ldB x =>
    exact (congrArg _ (c.writeBytes_apply s _ _)).trans (c.orOutOfBounds_apply s ..)
  | stRegs x =>
    exact (congrArg _ (c.writeBytes_apply s _ _)).trans (c.orOutOfBounds_apply s ..)
  | _ => rfl

end

/-- Settles O26: the fault registers are seen by none (R46, R225). -/
theorem faultRegistersOutOfReach : Obligations.FaultRegistersOutOfReach := fun i s h =>
  UnseenChange.exec_apply { halt := fun _ => h } s i (fun _ _ => rfl) (fun _ => rfl) (fun _ _ _ _ => rfl)
    (fun _ => rfl) (fun _ => rfl)

/-- Settles O27: ST is seen by none, and LD_ST_VX overwrites it (R41). -/
theorem soundTimerNeverRead : Obligations.SoundTimerNeverRead := by
  intro i s b
  cases i with
  | ldStVx x => rfl
  | _ =>
    exact UnseenChange.exec_apply { st := fun _ => b } s _ nofun (fun _ => rfl) (fun _ _ _ _ => rfl)
      (fun _ => rfl) (fun _ => rfl)

/-- Settles O28: the display is seen by DRW alone, and CLS overwrites it (R39). -/
theorem displayReadOnlyByDraw : Obligations.DisplayReadOnlyByDraw := by
  intro i s d hd
  by_cases hi : i = .cls
  · subst hi; rfl
  · simp only [if_neg hi]
    exact UnseenChange.exec_apply { fb := fun _ => d } s i (fun _ _ => rfl) (fun h => absurd h hi)
      (fun x y n h => absurd h (hd x y n)) (fun _ => rfl) (fun _ => rfl)

/-- Settles O29: the inputs are seen only through keys and rnd (R44, R45). -/
theorem inputsSeenOnlyBySamplers : Obligations.InputsSeenOnlyBySamplers := fun i s l n m hk hr =>
  UnseenChange.exec_apply { inputs := fun _ => l, drawn := fun _ => n, sinceReset := fun _ => m } s i (fun _ _ => rfl)
    (fun _ => rfl) (fun _ _ _ _ => rfl) hk hr

end Sys2Proof.Machine

/-! SUPPORT. The proofs of O11 and O53. -/

namespace Sys2Proof.Machine

/-! ### The boundary and the pixel index -/

/-- A timer after n ticks, never below zero (spec/10_state.md R42). -/
theorem timerAfter_toNat (b : Byte) (n : Nat) : (timerAfter b n).toNat = b.toNat - n := by
  have := b.isLt
  unfold timerAfter
  split
  · simp_all
  · rw [BitVec.toNat_ofNat]; omega

/-- Settles O11, by what n ticks leave of a timer; the other parts stay by definition (R42, R258, R260). -/
theorem boundaryAppliesTicks : Obligations.BoundaryAppliesTicks := by
  intro s
  refine ⟨timerAfter_toNat .., timerAfter_toNat .., rfl, rfl, rfl, fun p hp => ?_⟩
  cases p with
  | dt | st | inputs => simp at hp
  | _ => simp [Part.Same]

/-- Settles O53, by the division of the row-major index by the width (R191, R192). -/
theorem wrappedPixelsLandOnNextRow : Obligations.WrappedPixelsLandOnNextRow := by
  intro c r
  have hi : pixelIndex c r = (r * 64 + c) % 2048 := rfl
  refine ⟨by omega, fun hc hr => ⟨by omega, ?_⟩⟩
  split <;> omega

end Sys2Proof.Machine

/-! SUPPORT. The bytes that a store leaves in memory and what the fetch takes of them, with the proofs of O6, O8, O17, O24
and O30. -/

namespace Sys2Proof.Machine

/-! ### Where an access fails, and the bytes that stay -/

/-- Settles O6, by when a read and a store of at least one byte fail (R69, R70, R72). -/
theorem accessFailsAbove4095 : Obligations.AccessFailsAbove4095 := by
  intro s a n hn
  refine ⟨?_, fun bs hbs => ?_⟩
  · rw [State.readBytes_eq_none]
    exact and_iff_right hn
  · rw [State.writeBytes_eq_none, hbs]
    exact and_iff_right hn

/-- A byte of memory outside the range of seeded bytes is the old one. -/
theorem Memory.read_seed_of_outside (m : Memory) {a b : Nat} {bs : List Byte} (h : ¬(a ≤ b ∧ b < a + bs.length)) :
    Memory.read (m.seed a bs) b = Memory.read m b := by
  rw [Memory.read_seed, if_neg h]

/-- Settles O24: the memory an instruction leaves is the old one with its stored bytes seeded from I on (R61, R73,
R176). -/
theorem onlyStoredBytesChange : Obligations.OnlyStoredBytesChange := by
  intro i s t h b hb
  obtain ⟨bs, hlen, -, hmem⟩ := exec_mem h
  rw [hmem, Memory.read_seed_of_outside _ (by rwa [hlen])]

/-! ### The bytes that are stored, as data and as the next instruction -/

/-- Entry k of seeded bytes is the byte k addresses from the start. -/
theorem Memory.read_seed_of_getElem? (m : Memory) (a : Nat) {bs : List Byte} {k : Nat} {b : Byte}
    (h : bs[k]? = some b) : Memory.read (m.seed a bs) (a + k) = b := by
  obtain ⟨hk, -⟩ := List.getElem?_eq_some_iff.mp h
  rw [Memory.read_seed, if_pos (by omega), Nat.add_sub_cancel_left, List.getD_eq_getElem?_getD, h, Option.getD_some]

/-- Where two bytes in succession have been seeded, a fetch at the first takes them, the first one high
(spec/20_memory.md R68, R80). -/
theorem State.fetch_of_mem_seed {s : State} {m : Memory} {a k : Nat} {bs : List Byte} {hi lo : Byte}
    (hmem : s.mem = m.seed a bs) (hpc : s.pc.toNat = a + k) (hhi : bs[k]? = some hi) (hlo : bs[k + 1]? = some lo)
    (hlast : a + (k + 1) ≤ 4095) : s.fetch = some (wordOfBytes hi lo) := by
  rw [State.fetch_eq, hpc, Nat.add_assoc, if_pos hlast, hmem, Memory.read_seed_of_getElem? m a hhi,
    Memory.read_seed_of_getElem? m a hlo]

/-- Settles O30: the stored block lies in memory, and its entries k and k + 1 are the bytes that the fetch takes (R68,
R80, R174). -/
theorem storedBlockIsFetched : Obligations.StoredBlockIsFetched := by
  intro x k s t h hkx hpc
  obtain ⟨hfit, rfl⟩ := exec_stRegs_eq_next.mp h
  have hkv : k.val < x.val := hkx
  have hx := x.isLt
  have hsucc : (k + 1).val = k.val + 1 := Fin.val_add_one_of_lt' (by omega)
  have hlo := s.registersUpTo_getElem? x (k + 1) (Fin.le_def.mpr (by omega))
  rw [hsucc] at hlo
  exact State.fetch_of_mem_seed rfl hpc (s.registersUpTo_getElem? x k hkx.le) hlo (by omega)

/-! ### The word that is placed at pc -/

/-- A word numbered as the opcode table numbers it, with all its sixteen bits, is the word itself. -/
theorem tableWord_toNat (w : Word) : tableWord 16 w.toNat = w := by
  rw [tableWord, Nat.mod_eq_of_lt w.isLt, BitVec.ofNat_toNat, BitVec.setWidth_eq]

/-- A word is made of its two bytes, the high one first (spec/20_memory.md R68). -/
theorem wordOfBytes_bytesOfWord (w : Word) : wordOfBytes (w.extractLsb' 8 8) (w.extractLsb' 0 8) = w := by
  rw [wordOfBytes, BitVec.extractLsb'_append_extractLsb'_eq_extractLsb' (by rfl)]
  exact extract_all w

/-- A word placed where a word can be fetched is seeded into memory at pc; nothing else changes (log entry 11). -/
theorem State.placeWord_eq {s : State} (w : Word) (h : s.pc.toNat ≤ 0x0FFE) :
    s.placeWord w = s.setMem (s.mem.seed s.pc.toNat (bytesOfWord w)) := by
  have hb : (bytesOfWord w).length = 2 := rfl
  rw [State.placeWord, State.writeBytes_eq, if_pos (.inr (by omega)), Option.getD_some]

/-- The word that is placed at pc is the one fetched there (spec/20_memory.md R68). -/
theorem State.fetch_placeWord {s : State} (w : Word) (h : s.pc.toNat ≤ 0x0FFE) :
    (s.placeWord w).fetch = some w := by
  rw [State.placeWord_eq w h]
  calc (s.setMem _).fetch
    _ = some (wordOfBytes (w.extractLsb' 8 8) (w.extractLsb' 0 8)) :=
      State.fetch_of_mem_seed (a := s.pc.toNat) (k := 0) rfl rfl rfl rfl (by omega)
    _ = some w := by rw [wordOfBytes_bytesOfWord]

/-- A core that is not halted runs the word it fetches (spec/70_reset_and_hazards.md R254). -/
theorem step_eq_of_fetch {s : State} {w : Word} (hh : s.halt.halted = false) (hf : s.fetch = some w) :
    step s = endStep (exec (decodeWord w) s.advance) := by
  rw [step, hh, if_neg Bool.false_ne_true, runStep, hf]

/-- Settles O8: the placed word is fetched, and placing it changes neither pc nor the halt registers (R68, R254). -/
theorem placedWordRunsNext : Obligations.PlacedWordRunsNext := by
  intro s w hh hpc
  have hplace : s.withFetchWord 16 w.toNat = s.placeWord w := by rw [State.withFetchWord, tableWord_toNat]
  have hfetch : (s.placeWord w).fetch = some w := State.fetch_placeWord w hpc
  have hdec : decodeTableWord 16 w.toNat = some (decodeWord w) := by
    rw [decodeTableWord, tableWord_toNat, bytesOfWord, decodeBytes, wordOfBytes_bytesOfWord]
  rw [hplace]
  refine ⟨hfetch, hdec, ?_⟩
  have hsame := State.placeWord_eq w hpc
  rw [step_eq_of_fetch (by rw [hsame]; exact hh) hfetch, State.advance, hsame, State.setMem_pc]

/-! ### Memory at the release of reset -/

/-- The font is read at its base, before any store (spec/20_memory.md R64). -/
theorem Memory.initial_of_font {k : Nat} {b : Byte} (h : Config.font[k]? = some b) :
    Memory.initial (0x050 + k) = b := by
  have hlen : Config.font.length = 80 := rfl
  obtain ⟨hk, -⟩ := List.getElem?_eq_some_iff.mp h
  rw [Memory.initial, Config.fontBase, Config.fontLen, if_pos (by omega), Nat.add_sub_cancel_left,
    List.getD_eq_getElem?_getD, h, Option.getD_some]

/-- Outside the font memory is zero before any store (spec/20_memory.md R63). -/
theorem Memory.initial_of_outside_font {a : Nat} (h : a < 0x050 ∨ 0x0A0 ≤ a) : Memory.initial a = 0 := by
  rw [Memory.initial, Config.fontBase, Config.fontLen, if_neg (by omega)]

/-- A load of an image that fits gives the reset state with the image seeded at 0x200 (spec/70_reset_and_hazards.md
R252). -/
theorem State.load_eq_some {image : List Byte} (h : image.length ≤ 3584) :
    State.load image = some (State.reset.setMem (Memory.seed [] 0x200 image)) := if_pos h

/-- A load of a longer image is refused (log entry 14). -/
theorem State.load_eq_none {image : List Byte} (h : 3584 < image.length) : State.load image = none :=
  if_neg (Nat.not_le.mpr h)

/-- Settles O17: the image is read where it was seeded, and every other byte is that of the memory before any store, the
font or zero (R63, R64, R67, R252). -/
theorem loadBuildsMemory : Obligations.LoadBuildsMemory := by
  have hlen : Config.font.length = 80 := rfl
  refine ⟨hlen, fun image h => ⟨_, State.load_eq_some h, ?_, ?_, ?_, KeepsAllBut.refl.setMem _⟩,
    fun image h => State.load_eq_none h⟩
  · exact fun k b hb => Memory.read_seed_of_getElem? [] 0x200 hb
  · intro k b hb
    obtain ⟨hk, -⟩ := List.getElem?_eq_some_iff.mp hb
    rw [State.setMem_mem, Memory.read_seed_of_outside _ (by omega)]
    exact Memory.initial_of_font hb
  · intro a ha
    rw [State.setMem_mem, Memory.read_seed_of_outside _ (by omega)]
    exact Memory.initial_of_outside_font (by omega)

end Sys2Proof.Machine

/-! SUPPORT. The decoder against the encoder and against the opcode map, with the proofs of O1, O2, O3, O4 and O5. -/

namespace Sys2Proof

/-! ### The fields of a word as numbers, and the word of given fields -/

theorem catOf_toNat (w : Word) : (catOf w).toNat = w.toNat / 4096 := by
  have := w.isLt
  rw [catOf, BitVec.extractLsb'_toNat, Nat.shiftRight_eq_div_pow]
  omega

theorem xOf_val (w : Word) : (xOf w).val = w.toNat / 256 % 16 := by
  rw [xOf, BitVec.val_toFin, BitVec.extractLsb'_toNat, Nat.shiftRight_eq_div_pow]

theorem yOf_val (w : Word) : (yOf w).val = w.toNat / 16 % 16 := by
  rw [yOf, BitVec.val_toFin, BitVec.extractLsb'_toNat, Nat.shiftRight_eq_div_pow]

theorem nOf_toNat (w : Word) : (nOf w).toNat = w.toNat % 16 := BitVec.extractLsb'_toNat ..

theorem nnOf_toNat (w : Word) : (nnOf w).toNat = w.toNat % 256 := BitVec.extractLsb'_toNat ..

theorem nnnOf_toNat (w : Word) : (nnnOf w).toNat = w.toNat % 4096 := BitVec.extractLsb'_toNat ..

/-- The second byte of a word is NN (R91). -/
theorem nnOf_wordOfBytes (hi lo : Byte) : nnOf (wordOfBytes hi lo) = lo := by
  rw [nnOf, wordOfBytes, extract_low _ _ _ _ (by omega), extract_all]

/-- The first byte of a word is the part above NN (R91). -/
theorem wordOfBytes_toNat_div (hi lo : Byte) : (wordOfBytes hi lo).toNat / 256 = hi.toNat := by
  have := lo.isLt
  rw [wordOfBytes, BitVec.toNat_append, ← Nat.shiftLeft_add_eq_or_of_lt lo.isLt, Nat.shiftLeft_eq]
  omega

/-- Settles O2, by the value of each field as a number (R91). -/
theorem fieldsAreBitSlices : Obligations.FieldsAreBitSlices := by
  intro w
  rw [catOf_toNat, xOf_val, yOf_val, nOf_toNat, nnOf_toNat, nnnOf_toNat]
  refine ⟨rfl, rfl, rfl, rfl, by omega, by omega, ?_⟩
  rintro hi lo rfl
  rw [nnOf_wordOfBytes, ← wordOfBytes_toNat_div hi lo]
  exact ⟨by omega, rfl⟩

section
variable {w : Word} {c n : Nibble} {nn : Byte}

theorem wordNNN_of_fields (hc : catOf w = c) : wordNNN c (nnnOf w) = w := by
  rw [← hc, wordNNN_fields]

theorem wordXNN_of_fields (hc : catOf w = c) (hnn : nnOf w = nn) : wordXNN c (xOf w) nn = w := by
  rw [← hc, ← hnn, wordXNN_fields]

theorem wordXYN_of_fields (hc : catOf w = c) (hn : nOf w = n) : wordXYN c (xOf w) (yOf w) n = w := by
  rw [← hc, ← hn, wordXYN_fields]

/-- A word with its low nibble dropped (R101). -/
theorem wordXYN_zero_of_fields (hc : catOf w = c) : wordXYN c (xOf w) (yOf w) 0 = w &&& 0xFFF0 := by
  conv_rhs => rw [← wordXYN_of_fields hc rfl, wordXYN,
    show (0xFFF0 : Word) = (0xF : Nibble) ++ (0xF : Nibble) ++ (0xF : Nibble) ++ (0 : Nibble) from rfl,
    BitVec.and_append, BitVec.and_append, BitVec.and_append, show (0xF : Nibble) = BitVec.allOnes 4 from rfl,
    show (0 : Nibble) = 0#4 from rfl, BitVec.and_allOnes, BitVec.and_allOnes, BitVec.and_allOnes, BitVec.and_zero]
  rfl

end

/-! ### The catch-all rows -/

theorem wellFormed_nop0 {nnn : Addr} : (Instr.nop0 nnn).wellFormed = true ↔ nnn ∉ assigned0 := by
  simp [Instr.wellFormed]

theorem wellFormed_nop8 {x y : Reg} {n : Nibble} : (Instr.nop8 x y n).wellFormed = true ↔ n ∉ assigned8 := by
  simp [Instr.wellFormed]

theorem wellFormed_illE {x : Reg} {nn : Byte} : (Instr.illE x nn).wellFormed = true ↔ nn ∉ assignedE := by
  simp [Instr.wellFormed]

theorem wellFormed_illF {x : Reg} {nn : Byte} : (Instr.illF x nn).wellFormed = true ↔ nn ∉ assignedF := by
  simp [Instr.wellFormed]

section
variable {w : Word}

theorem decode0_of_not_mem (h : nnnOf w ∉ assigned0) : decode0 w = .nop0 (nnnOf w) := by
  simp_all [decode0, assigned0]

theorem decode8_of_not_mem (h : nOf w ∉ assigned8) : decode8 w = .nop8 (xOf w) (yOf w) (nOf w) := by
  simp_all [decode8, assigned8]

theorem decodeE_of_not_mem (h : nnOf w ∉ assignedE) : decodeE w = .illE (xOf w) (nnOf w) := by
  simp_all [decodeE, assignedE]

theorem decodeF_of_not_mem (h : nnOf w ∉ assignedF) : decodeF w = .illF (xOf w) (nnOf w) := by
  simp_all [decodeF, assignedF]

end

/-! ### Decoding what was encoded -/

section
variable {w : Word}

theorem decodeWord_eq_decode0 (h : catOf w = 0x0) : decodeWord w = decode0 w := by simp [decodeWord, h]
theorem decodeWord_eq_decode8 (h : catOf w = 0x8) : decodeWord w = decode8 w := by simp [decodeWord, h]
theorem decodeWord_eq_decodeE (h : catOf w = 0xE) : decodeWord w = decodeE w := by simp [decodeWord, h]
theorem decodeWord_eq_decodeF (h : catOf w = 0xF) : decodeWord w = decodeF w := by simp [decodeWord, h]

end

/-- Decoding the word of a well-formed instruction: the category leads to the instruction's own branch, and in the
categories 0, 8, E and F so does the sub-opcode, for a catch-all because well-formedness excludes the assigned ones
(R94, R98). -/
theorem decodeWord_encode {i : Instr} (h : i.wellFormed = true) : decodeWord (encode i) = i := by
  cases i with
  | cls | ret => rfl
  | nop0 nnn =>
    have hm := wellFormed_nop0.mp h
    rw [encode, decodeWord_eq_decode0 (catOf_wordNNN ..), decode0_of_not_mem (by simpa using hm), nnnOf_wordNNN]
  | nop8 x y n =>
    have hm := wellFormed_nop8.mp h
    rw [encode, decodeWord_eq_decode8 (catOf_wordXYN ..), decode8_of_not_mem (by simpa using hm), xOf_wordXYN,
      yOf_wordXYN, nOf_wordXYN]
  | illE x nn =>
    have hm := wellFormed_illE.mp h
    rw [encode, decodeWord_eq_decodeE (catOf_wordXNN ..), decodeE_of_not_mem (by simpa using hm), xOf_wordXNN,
      nnOf_wordXNN]
  | illF x nn =>
    have hm := wellFormed_illF.mp h
    rw [encode, decodeWord_eq_decodeF (catOf_wordXNN ..), decodeF_of_not_mem (by simpa using hm), xOf_wordXNN,
      nnOf_wordXNN]
  | ldReg x y | orReg x y | andReg x y | xorReg x y | addReg x y | sub x y | shr x y | subn x y | shl x y =>
    rw [encode, decodeWord_eq_decode8 (catOf_wordXYN ..)]
    simp [decode8]
  | skp x | sknp x =>
    rw [encode, decodeWord_eq_decodeE (catOf_wordXNN ..)]
    simp [decodeE]
  | ldVxDt x | ldVxK x | ldDtVx x | ldStVx x | addI x | ldF x | ldB x | stRegs x | ldRegs x =>
    rw [encode, decodeWord_eq_decodeF (catOf_wordXNN ..)]
    simp [decodeF]
  | _ => simp [encode, decodeWord]

/-- The bytes of a word in memory order decode as the word (R90, spec/20_memory.md R68). -/
theorem decodeBytes_bytesOfWord (w : Word) (rest : List Byte) :
    decodeBytes (bytesOfWord w ++ rest) = .instr (decodeWord w) rest := by
  rw [bytesOfWord, List.cons_append, List.cons_append, List.nil_append, decodeBytes, Machine.wordOfBytes_bytesOfWord]

/-- Settles O3, by the word of each instruction, and its bytes by the word they make (R90, R92, R95). -/
theorem decodeOfEncode : Obligations.DecodeOfEncode := by
  intro i h
  have hw := decodeWord_encode h
  exact ⟨hw, fun rest => by rw [decodeBytes_bytesOfWord, hw]⟩

/-- Settles O1, by evaluating the decoder on each word (R95, R99, R100, R101, R106). -/
theorem knownWordsDecode : Obligations.KnownWordsDecode := by
  unfold Obligations.KnownWordsDecode
  decide

/-! ### Encoding what was decoded -/

/-- All sixteen categories are assigned: what is left after the first fifteen is F (R97, R104). -/
theorem eq_0xF_of_not_mem :
    ∀ c : Nibble, c ∉ [0x0, 0x1, 0x2, 0x3, 0x4, 0x5, 0x6, 0x7, 0x8, 0x9, 0xA, 0xB, 0xC, 0xD, 0xE] → c = 0xF := by
  decide

/-- The dispatch on CAT, one case per category (R94, R97). -/
inductive Dispatched (w : Word) : Instr → Prop
  | cat0 (h : catOf w = 0x0) : Dispatched w (decode0 w)
  | cat1 (h : catOf w = 0x1) : Dispatched w (.jp (nnnOf w))
  | cat2 (h : catOf w = 0x2) : Dispatched w (.call (nnnOf w))
  | cat3 (h : catOf w = 0x3) : Dispatched w (.seImm (xOf w) (nnOf w))
  | cat4 (h : catOf w = 0x4) : Dispatched w (.sneImm (xOf w) (nnOf w))
  | cat5 (h : catOf w = 0x5) : Dispatched w (.seReg (xOf w) (yOf w))
  | cat6 (h : catOf w = 0x6) : Dispatched w (.ldImm (xOf w) (nnOf w))
  | cat7 (h : catOf w = 0x7) : Dispatched w (.addImm (xOf w) (nnOf w))
  | cat8 (h : catOf w = 0x8) : Dispatched w (decode8 w)
  | cat9 (h : catOf w = 0x9) : Dispatched w (.sneReg (xOf w) (yOf w))
  | catA (h : catOf w = 0xA) : Dispatched w (.ldI (nnnOf w))
  | catB (h : catOf w = 0xB) : Dispatched w (.jpV0 (nnnOf w))
  | catC (h : catOf w = 0xC) : Dispatched w (.rnd (xOf w) (nnOf w))
  | catD (h : catOf w = 0xD) : Dispatched w (.drw (xOf w) (yOf w) (nOf w))
  | catE (h : catOf w = 0xE) : Dispatched w (decodeE w)
  | catF (h : catOf w = 0xF) : Dispatched w (decodeF w)

/-- The one case split of the decoder on the category of a word. -/
theorem decodeWord_dispatched (w : Word) : Dispatched w (decodeWord w) := by
  refine iteInduction .cat0 fun h0 => ?_
  refine iteInduction .cat1 fun h1 => ?_
  refine iteInduction .cat2 fun h2 => ?_
  refine iteInduction .cat3 fun h3 => ?_
  refine iteInduction .cat4 fun h4 => ?_
  refine iteInduction .cat5 fun h5 => ?_
  refine iteInduction .cat6 fun h6 => ?_
  refine iteInduction .cat7 fun h7 => ?_
  refine iteInduction .cat8 fun h8 => ?_
  refine iteInduction .cat9 fun h9 => ?_
  refine iteInduction .catA fun hA => ?_
  refine iteInduction .catB fun hB => ?_
  refine iteInduction .catC fun hC => ?_
  refine iteInduction .catD fun hD => ?_
  refine iteInduction .catE fun hE => ?_
  exact .catF (eq_0xF_of_not_mem _ (by simp only [List.mem_cons, List.not_mem_nil, or_self, not_false_eq_true, *]))

/-- w is the word of i, and i is an instruction of the machine (R98). -/
structure Represents (i : Instr) (w : Word) : Prop where
  wellFormed : i.wellFormed = true
  encode_eq : encode i = w

section
variable {w : Word}

theorem decode0_represents (hc : catOf w = 0x0) : Represents (decode0 w) w := by
  have hw := wordNNN_of_fields hc
  unfold decode0
  split_ifs with h h'
  · exact ⟨rfl, by rw [← hw, h]; rfl⟩
  · exact ⟨rfl, by rw [← hw, h']; rfl⟩
  · refine ⟨wellFormed_nop0.mpr ?_, hw⟩
    simp only [assigned0, List.mem_cons, List.not_mem_nil, or_self, not_false_eq_true, *]

theorem decode8_represents (hc : catOf w = 0x8) : Represents (decode8 w) w := by
  unfold decode8
  split_ifs
  case neg =>
    refine ⟨wellFormed_nop8.mpr ?_, wordXYN_of_fields hc rfl⟩
    simp only [assigned8, List.mem_cons, List.not_mem_nil, or_self, not_false_eq_true, *]
  all_goals exact ⟨rfl, wordXYN_of_fields hc ‹_›⟩

theorem decodeE_represents (hc : catOf w = 0xE) : Represents (decodeE w) w := by
  unfold decodeE
  split_ifs
  case neg =>
    refine ⟨wellFormed_illE.mpr ?_, wordXNN_of_fields hc rfl⟩
    simp only [assignedE, List.mem_cons, List.not_mem_nil, or_self, not_false_eq_true, *]
  all_goals exact ⟨rfl, wordXNN_of_fields hc ‹_›⟩

theorem decodeF_represents (hc : catOf w = 0xF) : Represents (decodeF w) w := by
  unfold decodeF
  split_ifs
  case neg =>
    refine ⟨wellFormed_illF.mpr ?_, wordXNN_of_fields hc rfl⟩
    simp only [assignedF, List.mem_cons, List.not_mem_nil, or_self, not_false_eq_true, *]
  all_goals exact ⟨rfl, wordXNN_of_fields hc ‹_›⟩

/-- The word without the low nibble where decoding ignores it (R101). -/
def canonicalWord (w : Word) : Word := if catOf w = 0x5 ∨ catOf w = 0x9 then w &&& 0xFFF0 else w

/-- Outside the categories 5 and 9 no bit is ignored. -/
theorem Represents.canonical {i : Instr} {c : Nibble} (hc : catOf w = c) (h : Represents i w)
    (hne : ¬(c = 0x5 ∨ c = 0x9) := by decide) : Represents i (canonicalWord w) := by
  rwa [canonicalWord, hc, if_neg hne]

/-- In the categories 5 and 9 the canonical low nibble is 0. -/
theorem encode_eq_canonical {i : Instr} (hc : catOf w = 0x5 ∨ catOf w = 0x9)
    (h : encode i = wordXYN (catOf w) (xOf w) (yOf w) 0) : encode i = canonicalWord w := by
  rw [canonicalWord, if_pos hc, h, wordXYN_zero_of_fields rfl]

theorem Dispatched.represents {i : Instr} (h : Dispatched w i) : Represents i (canonicalWord w) := by
  cases h with
  | cat0 h => exact .canonical h (decode0_represents h)
  | cat8 h => exact .canonical h (decode8_represents h)
  | catE h => exact .canonical h (decodeE_represents h)
  | catF h => exact .canonical h (decodeF_represents h)
  | cat5 h => exact ⟨rfl, encode_eq_canonical (.inl h) (by rw [h]; rfl)⟩
  | cat9 h => exact ⟨rfl, encode_eq_canonical (.inr h) (by rw [h]; rfl)⟩
  | cat1 h | cat2 h | catA h | catB h => exact .canonical h ⟨rfl, wordNNN_of_fields h⟩
  | cat3 h | cat4 h | cat6 h | cat7 h | catC h => exact .canonical h ⟨rfl, wordXNN_of_fields h rfl⟩
  | catD h => exact .canonical h ⟨rfl, wordXYN_of_fields h rfl⟩

end

theorem decodeWord_represents (w : Word) : Represents (decodeWord w) (canonicalWord w) :=
  (decodeWord_dispatched w).represents

/-- Settles O4, by the category of the word and, in the categories 0, 8, E and F, its sub-opcode (R91, R97, R98,
R101). -/
theorem encodeOfDecode : Obligations.EncodeOfDecode :=
  fun w => ⟨(decodeWord_represents w).wellFormed, (decodeWord_represents w).encode_eq⟩

/-! ### The opcode map -/

theorem catOf_and (u v : Word) : catOf (u &&& v) = catOf u &&& catOf v := BitVec.extractLsb'_and

/-- Every row's mask covers the category (R95). -/
theorem catOf_value_of_match {w : Word} {r : OpcodeRow} (hr : r ∈ opcodeMap) (hm : w &&& r.mask = r.value) :
    catOf r.value = catOf w := by
  have hmask : ∀ r ∈ opcodeMap, catOf r.mask = BitVec.allOnes 4 := by decide
  rw [← hm, catOf_and, hmask r hr, BitVec.and_allOnes]

/-- Two rows of one category only exist in the categories 0, 8, E and F (R97, R98). -/
theorem category_of_two_rows : ∀ a ∈ opcodeMap, ∀ b ∈ opcodeMap, catOf a.value = catOf b.value → a ≠ b →
    catOf a.value = 0x0 ∨ catOf a.value = 0x8 ∨ catOf a.value = 0xE ∨ catOf a.value = 0xF := by
  decide

/-- The number of the first of some rows that a word selects; `selectedRow` is that of the whole map (R95, R98). -/
def firstRow (w : Word) (rows : List OpcodeRow) : Option Nat :=
  (rows.find? fun r => w &&& r.mask = r.value).map OpcodeRow.priority

theorem firstRow_cons (w : Word) (r : OpcodeRow) (rows : List OpcodeRow) :
    firstRow w (r :: rows) = if w &&& r.mask = r.value then some r.priority else firstRow w rows := by
  rw [firstRow, List.find?_cons]
  split <;> simp_all [firstRow]

/-- The rows of a category, in the order of the map (R97). -/
def rowsOf (c : Nibble) : List OpcodeRow := opcodeMap.filter fun r => catOf r.value = c

/-- Only the rows of its category can take a word. -/
theorem selectedRow_eq_firstRow {w : Word} {c : Nibble} {rows : List OpcodeRow} (hc : catOf w = c)
    (hrows : rowsOf c = rows) : selectedRow w = firstRow w rows := by
  rw [selectedRow, firstRow, ← hrows, rowsOf, List.find?_filter, ← hc]
  refine congrArg _ (List.find?_congr fun r hr => ?_)
  by_cases hm : w &&& r.mask = r.value
  · simp [hm, catOf_value_of_match hr hm]
  · simp [hm]

/-! ### The shapes of a row, and what a word has to be for each -/

/-- A row that takes one word. -/
def wordRow (p : Nat) (c : Nibble) (nnn : Addr) : OpcodeRow := ⟨p, 0xFFFF, wordNNN c nnn⟩

/-- A row that takes a category and an N. -/
def nRow (p : Nat) (c n : Nibble) : OpcodeRow := ⟨p, 0xF00F, wordXYN c 0 0 n⟩

/-- A row that takes a category and an NN. -/
def nnRow (p : Nat) (c : Nibble) (nn : Byte) : OpcodeRow := ⟨p, 0xF0FF, wordXNN c 0 nn⟩

/-- A row that takes a category. -/
def catRow (p : Nat) (c : Nibble) : OpcodeRow := ⟨p, 0xF000, wordNNN c 0⟩

theorem append_zero_append_eq_wordXYN : ∀ c n : Nibble, c ++ (0 : Byte) ++ n = wordXYN c 0 0 n := by decide

section
variable {w : Word} {c : Nibble} {p : Nat} {rows : List OpcodeRow}

theorem firstRow_wordRow (hc : catOf w = c) (nnn : Addr) :
    firstRow w (wordRow p c nnn :: rows) = if nnnOf w = nnn then some p else firstRow w rows := by
  have hm : w &&& 0xFFFF = wordNNN c (nnnOf w) := by
    rw [wordNNN_of_fields hc]
    exact BitVec.and_allOnes
  have hinj : wordNNN c (nnnOf w) = wordNNN c nnn ↔ nnnOf w = nnn :=
    ⟨fun h => by simpa using congrArg nnnOf h, congrArg _⟩
  simp only [firstRow_cons, wordRow, hm, hinj]

theorem firstRow_nRow (hc : catOf w = c) (n : Nibble) :
    firstRow w (nRow p c n :: rows) = if nOf w = n then some p else firstRow w rows := by
  have hm : w &&& 0xF00F = wordXYN c 0 0 (nOf w) := by
    conv_lhs => rw [← wordXYN_of_fields hc rfl, wordXYN_and_code]
    exact append_zero_append_eq_wordXYN c (nOf w)
  have hinj : wordXYN c 0 0 (nOf w) = wordXYN c 0 0 n ↔ nOf w = n :=
    ⟨fun h => by simpa using congrArg nOf h, congrArg _⟩
  simp only [firstRow_cons, nRow, hm, hinj]

theorem firstRow_nnRow (hc : catOf w = c) (nn : Byte) :
    firstRow w (nnRow p c nn :: rows) = if nnOf w = nn then some p else firstRow w rows := by
  have hm : w &&& 0xF0FF = wordXNN c 0 (nnOf w) := by
    conv_lhs => rw [← wordXNN_of_fields hc rfl, wordXNN_and_code]
    rfl
  have hinj : wordXNN c 0 (nnOf w) = wordXNN c 0 nn ↔ nnOf w = nn :=
    ⟨fun h => by simpa using congrArg nnOf h, congrArg _⟩
  simp only [firstRow_cons, nnRow, hm, hinj]

theorem firstRow_catRow (hc : catOf w = c) : firstRow w (catRow p c :: rows) = some p := by
  have hm : w &&& 0xF000 = wordNNN c 0 := by
    conv_lhs => rw [← wordNNN_of_fields hc, wordNNN_and_category]
    rfl
  simp only [firstRow_cons, catRow, hm, if_true]

/-- In a category of one row that row is selected (R97). -/
theorem selectedRow_of_catRow (hc : catOf w = c) (hrows : rowsOf c = [catRow p c]) : selectedRow w = some p := by
  rw [selectedRow_eq_firstRow hc hrows, firstRow_catRow hc]

theorem selectedRow_decode0 (hc : catOf w = 0x0) : selectedRow w = some (decode0 w).row := by
  have hrows : rowsOf 0x0 = [wordRow 1 0x0 0x0E0, wordRow 2 0x0 0x0EE, catRow 3 0x0] := rfl
  rw [selectedRow_eq_firstRow hc hrows, decode0]
  simp only [firstRow_wordRow hc, firstRow_catRow hc, apply_ite Instr.row, apply_ite some]
  rfl

theorem selectedRow_decode8 (hc : catOf w = 0x8) : selectedRow w = some (decode8 w).row := by
  have hrows : rowsOf 0x8 = [nRow 11 0x8 0, nRow 12 0x8 1, nRow 13 0x8 2, nRow 14 0x8 3, nRow 15 0x8 4, nRow 16 0x8 5,
    nRow 17 0x8 6, nRow 18 0x8 7, nRow 19 0x8 0xE, catRow 20 0x8] := rfl
  rw [selectedRow_eq_firstRow hc hrows, decode8]
  simp only [firstRow_nRow hc, firstRow_catRow hc, apply_ite Instr.row, apply_ite some]
  rfl

theorem selectedRow_decodeE (hc : catOf w = 0xE) : selectedRow w = some (decodeE w).row := by
  have hrows : rowsOf 0xE = [nnRow 26 0xE 0x9E, nnRow 27 0xE 0xA1, catRow 28 0xE] := rfl
  rw [selectedRow_eq_firstRow hc hrows, decodeE]
  simp only [firstRow_nnRow hc, firstRow_catRow hc, apply_ite Instr.row, apply_ite some]
  rfl

theorem selectedRow_decodeF (hc : catOf w = 0xF) : selectedRow w = some (decodeF w).row := by
  have hrows : rowsOf 0xF = [nnRow 29 0xF 0x07, nnRow 30 0xF 0x0A, nnRow 31 0xF 0x15, nnRow 32 0xF 0x18,
    nnRow 33 0xF 0x1E, nnRow 34 0xF 0x29, nnRow 35 0xF 0x33, nnRow 36 0xF 0x55, nnRow 37 0xF 0x65, catRow 38 0xF] :=
    rfl
  rw [selectedRow_eq_firstRow hc hrows, decodeF]
  simp only [firstRow_nnRow hc, firstRow_catRow hc, apply_ite Instr.row, apply_ite some]
  rfl

end

/-- The decoder's dispatch and the map agree on the row, category by category (R94, R95). -/
theorem Dispatched.selectedRow_eq {w : Word} {i : Instr} (h : Dispatched w i) : selectedRow w = some i.row := by
  cases h with
  | cat0 h => exact selectedRow_decode0 h
  | cat8 h => exact selectedRow_decode8 h
  | catE h => exact selectedRow_decodeE h
  | catF h => exact selectedRow_decodeF h
  | cat1 h | cat2 h | cat3 h | cat4 h | cat5 h | cat6 h | cat7 h | cat9 h | catA h | catB h | catC h | catD h =>
    exact selectedRow_of_catRow h rfl

/-- Decoding ignores no bit of the category. -/
theorem catOf_canonicalWord (w : Word) : catOf (canonicalWord w) = catOf w := by
  rw [canonicalWord]
  split
  · rw [catOf_and]
    exact BitVec.and_allOnes
  · rfl

/-- An instruction whose word takes its fields from w is decoded from w exactly if it has the category of w and is
well-formed: encoding what was decoded gives both, and decoding what was encoded gives the converse. -/
theorem decodeWord_eq_iff {w : Word} {i : Instr} {c : Nibble} (hcat : catOf (encode i) = c)
    (hfields : catOf w = c → encode i = w) : decodeWord w = i ↔ catOf w = c ∧ i.wellFormed = true := by
  constructor
  · rintro rfl
    obtain ⟨hwf, henc⟩ := decodeWord_represents w
    rw [henc, catOf_canonicalWord] at hcat
    exact ⟨hcat, hwf⟩
  · rintro ⟨hc, hwf⟩
    rw [← hfields hc, decodeWord_encode hwf]

theorem decodeWord_eq_nop0_iff (w : Word) :
    decodeWord w = .nop0 (nnnOf w) ↔ catOf w = 0x0 ∧ nnnOf w ∉ assigned0 := by
  rw [decodeWord_eq_iff (i := .nop0 _) (catOf_wordNNN ..) wordNNN_of_fields, wellFormed_nop0]

theorem decodeWord_eq_nop8_iff (w : Word) :
    decodeWord w = .nop8 (xOf w) (yOf w) (nOf w) ↔ catOf w = 0x8 ∧ nOf w ∉ assigned8 := by
  rw [decodeWord_eq_iff (i := .nop8 _ _ _) (catOf_wordXYN ..) (wordXYN_of_fields · rfl), wellFormed_nop8]

theorem decodeWord_eq_illE_iff (w : Word) :
    decodeWord w = .illE (xOf w) (nnOf w) ↔ catOf w = 0xE ∧ nnOf w ∉ assignedE := by
  rw [decodeWord_eq_iff (i := .illE _ _) (catOf_wordXNN ..) (wordXNN_of_fields · rfl), wellFormed_illE]

theorem decodeWord_eq_illF_iff (w : Word) :
    decodeWord w = .illF (xOf w) (nnOf w) ↔ catOf w = 0xF ∧ nnOf w ∉ assignedF := by
  rw [decodeWord_eq_iff (i := .illF _ _) (catOf_wordXNN ..) (wordXNN_of_fields · rfl), wellFormed_illF]

/-- The codes of category 8 that are not assigned (R98, R100). -/
theorem not_mem_assigned8_iff : ∀ n : Nibble, n ∉ assigned8 ↔ n ∈ [0x8, 0x9, 0xA, 0xB, 0xC, 0xD, 0xF] := by
  decide

/-- Two rows that match one word are of its category, which then holds more than one row (R98). -/
theorem category_of_two_matches {w : Word} {a b : OpcodeRow} (ha : a ∈ opcodeMap) (hb : b ∈ opcodeMap)
    (hma : w &&& a.mask = a.value) (hmb : w &&& b.mask = b.value) (hne : a ≠ b) :
    catOf w = 0x0 ∨ catOf w = 0x8 ∨ catOf w = 0xE ∨ catOf w = 0xF := by
  have hca := catOf_value_of_match ha hma
  rw [← hca]
  exact category_of_two_rows a ha b hb (hca.trans (catOf_value_of_match hb hmb).symm) hne

/-- Settles O5, by the rows of each category, and the catch-all rows by encoding what was decoded (R98). -/
theorem decodeTakesFirstMatchingRow : Obligations.DecodeTakesFirstMatchingRow :=
  ⟨fun w => (decodeWord_dispatched w).selectedRow_eq, fun _ _ _ ha hb => category_of_two_matches ha hb,
    decodeWord_eq_nop0_iff, fun w => (decodeWord_eq_nop8_iff w).trans (and_congr_right' (not_mem_assigned8_iff _)),
    decodeWord_eq_illE_iff, decodeWord_eq_illF_iff⟩

end Sys2Proof

/-! SUPPORT. Control flow: the skips, the return, the call, the jumps and the end of a run, with the proofs of O31, O33, O34,
O35, O36 and O37. -/

namespace Sys2Proof.Machine

/-! ### The end of a run -/

/-- The fetch depends on pc and the memory alone (spec/70_reset_and_hazards.md R254). -/
theorem State.fetch_congr {s t : State} (hpc : t.pc = s.pc) (hm : t.mem = s.mem) : t.fetch = s.fetch := by
  rw [State.fetch_eq, State.fetch_eq, hpc, hm]

/-- At the end of a run the jump undoes the fetch increment, so that a step is the boundary alone
(spec/70_reset_and_hazards.md R268). -/
theorem State.finished.step_eq {s : State} (hh : s.halt.halted = false) (h : s.finished) :
    step s = .next s.boundary := by
  obtain ⟨w, a, hf, hd, ha⟩ := h
  have hexec : exec (.jp a) s.advance = .next s :=
    calc exec (.jp a) s.advance
      _ = .next (s.advance.setPc (addrOperand a)) := rfl
      _ = .next s := by rw [ha]; rfl
  rw [step_eq_of_fetch hh hf, hd, hexec]
  rfl

/-- The boundary changes neither pc nor the memory, so that the end of a run stays one (spec/70_reset_and_hazards.md
R268). -/
theorem State.finished.boundary {s : State} (h : s.finished) : s.boundary.finished := by
  obtain ⟨w, a, hf, hd, ha⟩ := h
  exact ⟨w, a, (State.fetch_congr rfl rfl).trans hf, hd, ha⟩

/-- Settles O31: the step is the boundary alone, whose frame is that of O11 (R122, R268). -/
theorem finishedStaysFinished : Obligations.FinishedStaysFinished := by
  intro s hh h
  obtain ⟨-, -, -, -, -, hframe⟩ := boundaryAppliesTicks s
  exact ⟨s.boundary, h.step_eq hh, h.boundary, hframe⟩

/-! ### The call stack -/

/-- An instruction whose check fails raises the cause of it (spec/60_exceptions.md R221, R226). -/
theorem exec_eq_raiseFatal {i : Instr} {s : State} {cause : Word → Word → Fault}
    (h : i.failingCheck s = some cause) : exec i s = raiseFatal cause i s := by
  have hc := completesUnless_failingCheck i s
  rwa [h] at hc

/-- Settles O34: RET leaves the stack without its last entry, which is its pc and which the invariant bounds; its check
fails on the empty stack (R121). -/
theorem retPopsReturnAddress : Obligations.RetPopsReturnAddress := by
  refine ⟨decodeWord_encode (i := .ret) rfl, fun s l v hs => ?_, fun s hs => ?_⟩
  · have hexec : exec .ret s = .next ((s.setStack l).setPc v) := exec_ret_eq_next.mpr ⟨l, v, hs, rfl⟩
    refine ⟨_, hexec, rfl, rfl, (KeepsAllBut.refl.setStack l).setPc v, fun hi => ?_⟩
    obtain ⟨-, -, hstack, -⟩ := State.inv_iff.mp hi
    exact hstack v (by rw [hs]; simp)
  · have hsp : s.sp = 0 := by rw [State.sp_eq, hs, List.length_nil]
    exact exec_eq_raiseFatal (if_pos hsp)

/-- A stack is not full exactly if sp is below STACK_DEPTH where there is one (spec/10_state.md R33). -/
theorem stackFull_eq_false_iff {depth : Option Nat} {sp : Nat} :
    stackFull depth sp = false ↔ ∀ d ∈ depth, sp < d := by
  cases depth <;> simp [stackFull]

/-- Settles O36: CALL pushes pc on a stack that is not full; its check fails on a full one, which an unbounded stack never
is (R123). -/
theorem callPushesReturnAddress : Obligations.CallPushesReturnAddress := by
  refine ⟨fun nnn => decodeWord_encode (i := .call nnn) rfl, fun nnn s hs => ?_, fun nnn s d hd hs => ?_,
    fun s v => ?_⟩
  · have hexec : exec (.call nnn) s = .next ((s.setStack (s.stack ++ [s.pc])).setPc (addrOperand nnn)) :=
      exec_call_eq_next.mpr ⟨stackFull_eq_false_iff.mpr hs, rfl⟩
    exact ⟨_, hexec, rfl, List.length_append, addrOperand_toNat nnn, (KeepsAllBut.refl.setStack _).setPc _⟩
  · have hfull : ∃ d ∈ Config.stackDepth, d ≤ s.sp := ⟨d, hd, hs⟩
    exact exec_eq_raiseFatal (if_pos hfull)
  · have hroom : stackFull none s.sp = false := rfl
    rw [Ne, State.push_eq_none, hroom]
    exact Bool.false_ne_true

/-! ### The no-operations and the jumps -/

/-- Settles O33: the unassigned codes are those of well-formed terms, and neither instruction writes anything (R99, R100,
R120, R152). -/
theorem nopsChangeNothing : Obligations.NopsChangeNothing := by
  refine ⟨fun nnn hcls hret => decodeWord_encode (i := .nop0 nnn) (wellFormed_nop0.mpr ?_),
    fun x y n hn => decodeWord_encode (i := .nop8 x y n) (wellFormed_nop8.mpr ((not_mem_assigned8_iff n).mpr hn)),
    fun nnn x y n s => ⟨s, s, rfl, rfl, .refl, .refl⟩⟩
  simpa [assigned0] using And.intro hcls hret

/-- Settles O35: both targets fit in pc as numbers (R122, R128). -/
theorem jumpsSetPc : Obligations.JumpsSetPc := fun nnn =>
  ⟨decodeWord_encode (i := .jp nnn) rfl, decodeWord_encode (i := .jpV0 nnn) rfl, fun _ =>
    ⟨⟨_, rfl, addrOperand_toNat nnn, KeepsAllBut.refl.setPc _⟩,
      ⟨_, rfl, addrOperand_add_byteOperand_toNat nnn _, KeepsAllBut.refl.setPc _⟩⟩⟩

/-! ### The skips -/

/-- The low nibble of category 5 is not decoded (spec/30_encoding.md R101). -/
theorem decodeWord_seReg (x y : Reg) (n : Nibble) : decodeWord (wordXYN 0x5 x y n) = .seReg x y := by
  simp [decodeWord]

/-- The low nibble of category 9 is not decoded (spec/30_encoding.md R101). -/
theorem decodeWord_sneReg (x y : Reg) (n : Nibble) : decodeWord (wordXYN 0x9 x y n) = .sneReg x y := by
  simp [decodeWord]

/-- pc after a skip on a condition (spec/40_control_flow.md R124). -/
theorem State.skipIf_pc (s : State) (p : Prop) [Decidable p] :
    (s.skipIf p).pc = if p then s.pc + 2 else s.pc := by
  rw [State.skipIf_eq, State.setPc_pc]
  simp only [decide_eq_true_iff]

/-- pc after a skip on the opposite of a condition (spec/40_control_flow.md R125). -/
theorem State.skipIf_not_pc (s : State) (p : Prop) [Decidable p] :
    (s.skipIf (¬p)).pc = if p then s.pc else s.pc + 2 := by
  rw [State.skipIf_pc, ite_not]

/-- Settles O37: each skip writes pc alone, by its condition on the registers (R124, R125, R126, R127). -/
theorem skipsAddTwo : Obligations.SkipsAddTwo := by
  intro x y nn
  refine ⟨decodeWord_encode (i := .seImm x nn) rfl, decodeWord_encode (i := .sneImm x nn) rfl,
    fun n => ⟨decodeWord_seReg x y n, decodeWord_sneReg x y n⟩, fun s => ?_⟩
  have hframe (c : Bool) : KeepsAllBut [.pc] s (s.skipIf c) := KeepsAllBut.refl.skipIf c
  have hse := s.skipIf_pc (s.readV x = s.readV y)
  have hsne := s.skipIf_not_pc (s.readV x = s.readV y)
  refine ⟨⟨_, rfl, s.skipIf_pc _, hframe _⟩, ⟨_, rfl, s.skipIf_not_pc _, hframe _⟩,
    ⟨_, rfl, hse, hframe _, fun hxy => ?_⟩, ⟨_, rfl, hsne, hframe _, fun hxy => ?_⟩⟩
  · exact hse.trans (if_pos (congrArg s.readV hxy))
  · exact hsne.trans (if_pos (congrArg s.readV hxy))

end Sys2Proof.Machine

/-! SUPPORT. The ALU: what one write and a result with its flag leave in the registers, the flags and the byte
arithmetic as numbers, and the proofs of O38 to O44. -/

namespace Sys2Proof.Machine

/-! ### The destination and VF -/

section
variable (s : State) (d : Reg) (b : Byte) (c : Bool)

theorem State.readV_setV_self : (s.setV d b).readV d = b := by
  rw [State.readV_setV, if_pos rfl]

/-- A write to one register leaves the others and every other part (spec/10_state.md R20). -/
theorem State.setV_frame : KeepsRegsBut [d] s (s.setV d b) ∧ KeepsAllBut [.v] s (s.setV d b) :=
  ⟨KeepsRegsBut.refl.setV d b, KeepsAllBut.refl.setV d b⟩

/-- A destination other than VF holds the result once the flag is written (spec/41_alu.md R142). -/
theorem State.readV_setResultAndFlag_of_ne_VF (h : d ≠ VF) : (s.setResultAndFlag d b c).readV d = b := by
  rw [State.readV_setResultAndFlag, if_neg h, if_pos rfl]

/-- A result and its flag write the destination and VF alone (spec/41_alu.md R142). -/
theorem State.setResultAndFlag_frame :
    KeepsRegsBut [d, VF] s (s.setResultAndFlag d b c) ∧ KeepsAllBut [.v] s (s.setResultAndFlag d b c) :=
  ⟨KeepsRegsBut.refl.setResultAndFlag d b c, KeepsAllBut.refl.setResultAndFlag d b c⟩

end

/-! ### The flags and the results as numbers -/

/-- The flag of a condition (spec/10_state.md R22). -/
theorem flagByte_decide (p : Prop) [Decidable p] : flagByte (decide p) = if p then 1 else 0 := by
  simp only [flagByte, decide_eq_true_iff]

theorem flagByte_toNat (c : Bool) : (flagByte c).toNat = c.toNat := by
  cases c <;> rfl

section
variable (a b : Byte)

/-- A difference of bytes: the true one without a borrow, 256 more with one (spec/41_alu.md R148). -/
theorem byte_sub_toNat :
    (a - b).toNat = if b.toNat ≤ a.toNat then a.toNat - b.toNat else a.toNat + 256 - b.toNat := by
  have ha := a.isLt
  have hb := b.isLt
  rw [BitVec.toNat_sub]
  split <;> omega

/-- The bit that a right shift drops is the remainder of the halving (spec/41_alu.md R149). -/
theorem flagByte_bitShiftedRight_toNat : (flagByte (bitShiftedRight a)).toNat = a.toNat % 2 := by
  rw [flagByte_toNat, bitShiftedRight, ← BitVec.testBit_toNat, Nat.toNat_testBit, Nat.pow_zero, Nat.div_one]

/-- The bit that a left shift drops is the carry of the doubling (spec/41_alu.md R151). -/
theorem flagByte_bitShiftedLeft_toNat : (flagByte (bitShiftedLeft a)).toNat = a.toNat / 128 := by
  have ha := a.isLt
  rw [flagByte_toNat, bitShiftedLeft, ← BitVec.testBit_toNat, Nat.toNat_testBit]
  omega

theorem byte_shiftRight_one_toNat : (a >>> 1).toNat = a.toNat / 2 := by
  rw [BitVec.toNat_ushiftRight, Nat.shiftRight_eq_div_pow, Nat.pow_one]

theorem byte_shiftLeft_one_toNat : (a <<< 1).toNat = a.toNat * 2 % 256 := by
  rw [BitVec.toNat_shiftLeft, Nat.shiftLeft_eq, Nat.pow_one]

end

/-! ### The instructions without a flag -/

/-- Settles O38: each form is one write to VX (R140, R141, R143). -/
theorem loadsAndAddImmWriteVx : Obligations.LoadsAndAddImmWriteVx := by
  refine fun x y nn => ⟨decodeWord_encode (i := .ldImm x nn) rfl, decodeWord_encode (i := .addImm x nn) rfl,
    decodeWord_encode (i := .ldReg x y) rfl, fun s => ⟨⟨_, rfl, ?_, s.setV_frame x _⟩,
      ⟨_, rfl, ?_, s.setV_frame x _⟩, ⟨_, rfl, ?_, s.setV_frame x _⟩⟩⟩
  · exact s.readV_setV_self x nn
  · rw [State.readV_setV_self, BitVec.toNat_add]
  · exact s.readV_setV_self x _

/-- Settles O39: each form is one write to VX, of a byte made bit by bit (R144, R145, R146). -/
theorem logicIsBitwise : Obligations.LogicIsBitwise := by
  refine fun x y => ⟨decodeWord_encode (i := .orReg x y) rfl, decodeWord_encode (i := .andReg x y) rfl,
    decodeWord_encode (i := .xorReg x y) rfl, fun s => ?_⟩
  have hregs (b : Byte) : KeepsRegsBut [x] s (s.setV x b) := (s.setV_frame x b).left
  have hparts (b : Byte) : KeepsAllBut [.v] s (s.setV x b) := (s.setV_frame x b).right
  refine ⟨⟨_, rfl, hregs _, hparts _, fun k => ?_⟩, ⟨_, rfl, hregs _, hparts _, fun k => ?_⟩,
    ⟨_, rfl, hregs _, hparts _, fun k => ?_⟩⟩
  · rw [State.readV_setV_self, BitVec.getLsbD_or]
  · rw [State.readV_setV_self, BitVec.getLsbD_and]
  · rw [State.readV_setV_self, BitVec.getLsbD_xor]

/-- Settles O44: RND is one write to VX, of the step's random byte masked by NN (R153). -/
theorem rndMasksRandomByte : Obligations.RndMasksRandomByte := by
  refine fun x nn => ⟨decodeWord_encode (i := .rnd x nn) rfl, fun s => ?_⟩
  have hvx := s.readV_setV_self x (s.rnd &&& nn)
  refine ⟨_, rfl, fun k => ?_, fun hnn => ?_, fun hnn => ?_, s.setV_frame x _⟩
  · rw [hvx, BitVec.getLsbD_and]
  · rw [hvx, hnn]
    exact BitVec.and_allOnes
  · rw [hvx, hnn]
    exact BitVec.and_zero

/-! ### The instructions with a flag -/

/-- Settles O40: a sum with its carry (R147). -/
theorem addRegSumAndCarry : Obligations.AddRegSumAndCarry := by
  refine fun x y => ⟨decodeWord_encode (i := .addReg x y) rfl, fun s =>
    ⟨_, rfl, ?_, fun hx => ?_, s.setResultAndFlag_frame x _ _⟩⟩
  · rw [State.readV_VF_setResultAndFlag, carryOut, flagByte_decide]
  · rw [State.readV_setResultAndFlag_of_ne_VF _ _ _ _ hx, BitVec.toNat_add]

/-- A difference with its flag, whatever the destination (spec/41_alu.md R148, R150). -/
theorem State.setResultAndFlag_difference {s t : State} {d : Reg} {a b : Byte}
    (ht : t = s.setResultAndFlag d (a - b) (noBorrow a b)) :
    t.readV VF = (if b.toNat ≤ a.toNat then 1 else 0) ∧
      (d ≠ VF → (t.readV d).toNat = if b.toNat ≤ a.toNat then a.toNat - b.toNat else a.toNat + 256 - b.toNat) ∧
      KeepsRegsBut [d, VF] s t ∧ KeepsAllBut [.v] s t := by
  subst ht
  refine ⟨?_, fun hd => ?_, s.setResultAndFlag_frame d _ _⟩
  · rw [State.readV_VF_setResultAndFlag, noBorrow, flagByte_decide]
  · rw [State.readV_setResultAndFlag_of_ne_VF _ _ _ _ hd, byte_sub_toNat]

/-- Settles O41: the difference goes to VX (R148). -/
theorem subDifferenceAndNoBorrow : Obligations.SubDifferenceAndNoBorrow := fun x y =>
  ⟨decodeWord_encode (i := .sub x y) rfl, fun _ => ⟨_, rfl, State.setResultAndFlag_difference rfl⟩⟩

/-- Settles O42: the operands of SUB exchanged, and the difference to the register that SUBN_DEST names (R150). -/
theorem subnForEachDestination : Obligations.SubnForEachDestination := by
  refine fun x y => ⟨decodeWord_encode (i := .subn x y) rfl, fun s => ⟨rfl, fun dest d t hd ht => ?_⟩⟩
  subst hd
  exact State.setResultAndFlag_difference ht

/-- Settles O43: a halving and a doubling of VX, each with the bit it drops (R149, R151). -/
theorem shiftsByOne : Obligations.ShiftsByOne := by
  refine fun x y => ⟨decodeWord_encode (i := .shr x y) rfl, decodeWord_encode (i := .shl x y) rfl, fun s =>
    ⟨⟨_, rfl, ?_, fun hx => ?_, s.setResultAndFlag_frame x _ _⟩,
      ⟨_, rfl, ?_, fun hx => ?_, s.setResultAndFlag_frame x _ _⟩⟩⟩
  · rw [State.readV_VF_setResultAndFlag, flagByte_bitShiftedRight_toNat]
  · rw [State.readV_setResultAndFlag_of_ne_VF _ _ _ _ hx, byte_shiftRight_one_toNat]
  · rw [State.readV_VF_setResultAndFlag, flagByte_bitShiftedLeft_toNat]
  · rw [State.readV_setResultAndFlag_of_ne_VF _ _ _ _ hx, byte_shiftLeft_one_toNat]

end Sys2Proof.Machine

/-! SUPPORT. The index register and the transfers between the registers and memory: the index values, digits and loaded
registers as numbers and bytes, and the proofs of O45, O46, O47, O48 and O49. -/

namespace Sys2Proof.Machine

/-! ### The index register -/

/-- The glyph of a byte lies at 0x050 + 5 times the whole byte, which fits in I (spec/42_index_memory.md R172). -/
theorem glyphAddress_toNat (b : Byte) : (glyphAddress b).toNat = 0x050 + 5 * b.toNat := by
  have := b.isLt
  rw [glyphAddress, Config.fontBase, Config.glyphLen, BitVec.toNat_ofNat]
  omega

/-- Settles O45: both values fit in I as numbers (R170, R172). -/
theorem indexLoads : Obligations.IndexLoads :=
  ⟨fun nnn => ⟨decodeWord_encode (i := .ldI nnn) rfl, fun _ =>
      ⟨_, rfl, addrOperand_toNat nnn, KeepsAllBut.refl.setIndex _⟩⟩,
    fun x => ⟨decodeWord_encode (i := .ldF x) rfl, fun _ =>
      ⟨_, rfl, glyphAddress_toNat _, KeepsAllBut.refl.setIndex _⟩⟩⟩

/-- ADD_I puts the sum in I, and 1 in VF exactly if the true sum leaves the 12-bit range (spec/42_index_memory.md R171). -/
theorem exec_addI_index_and_VF {x : Reg} {s t : State} (h : exec (.addI x) s = .next t) :
    t.index = s.index + byteOperand (s.readV x) ∧
      t.readV VF = if 0x1000 ≤ s.index.toNat + (s.readV x).toNat then 1 else s.readV VF := by
  cases h
  simp only [leavesIndexRange, decide_eq_true_iff]
  split
  · exact ⟨rfl, State.readV_setV_self _ VF 1⟩
  · exact ⟨rfl, rfl⟩

/-- Settles O46: I and VF as ADD_I leaves them; the rest stays by O22 and O23 (R171). -/
theorem addIFlagsLeavingRange : Obligations.AddIFlagsLeavingRange := by
  refine fun x => ⟨decodeWord_encode (i := .addI x) rfl, fun s => ?_⟩
  obtain ⟨t, hexec⟩ : ∃ t, exec (.addI x) s = .next t := ⟨_, rfl⟩
  obtain ⟨hindex, hflag⟩ := exec_addI_index_and_VF hexec
  refine ⟨t, hexec, ?_, hflag, onlyListedRegistersChange _ _ _ hexec, onlyListedPartsChange _ _ _ hexec⟩
  rw [hindex, BitVec.toNat_add, byteOperand_toNat]

/-! ### Stores -/

/-- A number below 256 that is stored as a byte is read back as that number (spec/42_index_memory.md R173). -/
theorem Memory.read_seed_toNat (m : Memory) (a : Nat) {bs : List Byte} {k n : Nat}
    (h : bs[k]? = some (BitVec.ofNat 8 n)) (hn : n < 256) : (Memory.read (m.seed a bs) (a + k)).toNat = n := by
  rw [Memory.read_seed_of_getElem? m a h, BitVec.toNat_ofNat, Nat.mod_eq_of_lt hn]

/-- Settles O47: the three digits are seeded from I on; the check fails where the third lies above 4095 (R173). -/
theorem ldBStoresDigits : Obligations.LdBStoresDigits := by
  refine fun x => ⟨decodeWord_encode (i := .ldB x) rfl, fun s => ⟨fun hfit => ?_, fun hout => ?_⟩⟩
  · have hbyte := (s.readV x).isLt
    have hexec := (exec_ldB_eq_next (x := x)).mpr ⟨Nat.succ_le_succ hfit, rfl⟩
    refine ⟨_, hexec, ?_, ?_, ?_, onlyStoredBytesChange _ _ _ hexec, onlyListedPartsChange _ _ _ hexec⟩
    · exact Memory.read_seed_toNat s.mem s.base (k := 0) rfl (by omega)
    · exact Memory.read_seed_toNat s.mem s.base (k := 1) rfl (by omega)
    · exact Memory.read_seed_toNat s.mem s.base (k := 2) rfl (by omega)
  · exact exec_eq_raiseFatal (if_pos hout)

/-- Settles O48: V0 to VX are seeded from I on; the check fails where the last lies above 4095 (R174). -/
theorem stRegsStoresBlock : Obligations.StRegsStoresBlock := by
  refine fun x => ⟨decodeWord_encode (i := .stRegs x) rfl, fun s => ⟨fun hfit => ?_, fun hout => ?_⟩⟩
  · have hexec := (exec_stRegs_eq_next (x := x)).mpr ⟨Nat.succ_le_succ hfit, rfl⟩
    exact ⟨_, hexec, fun k hk => Memory.read_seed_of_getElem? s.mem s.base (s.registersUpTo_getElem? x k hk),
      onlyStoredBytesChange _ _ _ hexec, onlyListedPartsChange _ _ _ hexec⟩
  · exact exec_eq_raiseFatal (if_pos hout)

/-! ### Loads -/

/-- A read that stays in memory gives its bytes in ascending order (spec/20_memory.md R69). -/
theorem State.readBytes_of_le (s : State) {a n : Nat} (h : a + n ≤ 4096) :
    s.readBytes a n = some ((List.range n).map fun k => s.mem.read (a + k)) := by
  rw [State.readBytes_eq, if_pos (.inr h)]

/-- Register k of a block loaded from V0 on is entry k of the block (spec/42_index_memory.md R175). -/
theorem State.readV_setRegistersFrom_zero_of_getElem? (s : State) {bs : List Byte} {k : Reg} {b : Byte}
    (hlen : bs.length ≤ 16) (h : bs[k.val]? = some b) : (s.setRegistersFrom 0 bs).readV k = b := by
  obtain ⟨hk, -⟩ := List.getElem?_eq_some_iff.mp h
  rw [State.readV_setRegistersFrom _ _ _ _ (by omega), if_pos (by omega), Nat.sub_zero, List.getD_eq_getElem?_getD, h,
    Option.getD_some]

/-- Settles O49: V0 to VX are the bytes read from I on; the check fails where the last lies above 4095 (R175). -/
theorem ldRegsLoadsBlock : Obligations.LdRegsLoadsBlock := by
  refine fun x => ⟨decodeWord_encode (i := .ldRegs x) rfl, fun s => ⟨fun hfit => ?_, fun hout => ?_⟩⟩
  · have hbytes := s.readBytes_of_le (a := s.base) (n := x.val + 1) (Nat.succ_le_succ hfit)
    have hlen := State.readBytes_length hbytes
    have hexec := (exec_ldRegs_eq_next (x := x)).mpr ⟨_, hbytes, rfl⟩
    refine ⟨_, hexec, fun k hk => ?_, fun k hk => ?_, onlyListedPartsChange _ _ _ hexec⟩
    · refine s.readV_setRegistersFrom_zero_of_getElem? (hlen.trans_le x.isLt) ?_
      rw [List.getElem?_map, List.getElem?_range (Nat.lt_succ_of_le hk)]
      rfl
    · exact s.readV_setRegistersFrom_zero_of_le (hlen.trans_le hk)
  · exact exec_eq_raiseFatal (if_pos hout)

end Sys2Proof.Machine

/-! SUPPORT. The display: distinct targets, what a draw leaves in the pixels and VF, and the view, with the proofs of O50,
O51, O52, O54, O55 and O56. -/

namespace Sys2Proof.Machine

/-! ### The targets of a sprite -/

/-- Two bits of a sprite of at most 15 rows on one pixel are the same bit (spec/43_display.md R193 (a)). -/
theorem pixelIndex_injective {x0 row i i' j j' : Nat} (hi : i < 15) (hi' : i' < 15) (hj : j < 8) (hj' : j' < 8)
    (h : pixelIndex (x0 + j) (row + i) = pixelIndex (x0 + j') (row + i')) : i = i' ∧ j = j' := by
  simp only [pixelIndex, Config.width, Config.npix] at h
  omega

theorem rowTargets_nodup (x0 row : Nat) (b : Byte) : (rowTargets x0 row b).Nodup := by
  have hcols : spriteColumns.Nodup := by decide
  have hlt : ∀ j ∈ spriteColumns, j < 8 := by decide
  refine (hcols.filter _).map_on fun j hj j' hj' h => ?_
  have hj := hlt j (List.mem_of_mem_filter hj)
  have hj' := hlt j' (List.mem_of_mem_filter hj')
  exact (pixelIndex_injective (i := 0) (i' := 0) (by decide) (by decide) hj hj' h).right

/-- Settles O52, by induction on the rows: a target of the first row is none of a later row, as two bits of one sprite
never meet (R193 (a)). -/
theorem spriteTargetsDistinct : Obligations.SpriteTargetsDistinct := by
  intro x0 y0 rows
  induction rows generalizing y0 with
  | nil => exact fun _ => List.nodup_nil
  | cons b bs ih =>
    intro hlen
    rw [List.length_cons] at hlen
    refine (rowTargets_nodup x0 y0 b).append (ih (y0 + 1) (by omega)) fun q hfirst hlater => ?_
    obtain ⟨j, hj, -, rfl⟩ := mem_rowTargets.mp hfirst
    obtain ⟨i, c, hc, j', hj', -, hq⟩ := mem_spriteTargets.mp hlater
    obtain ⟨hi, -⟩ := List.getElem?_eq_some_iff.mp hc
    rw [Nat.add_right_comm, Nat.add_assoc] at hq
    obtain ⟨hrow, -⟩ := pixelIndex_injective (i := 0) (by decide) (by omega) hj hj' hq
    omega

/-- Entry i of the bytes read from a on is the byte at a + i (spec/20_memory.md R69). -/
theorem State.readBytes_getElem?_eq_some {s : State} {a n i : Nat} {bs : List Byte} {b : Byte}
    (h : s.readBytes a n = some bs) : bs[i]? = some b ↔ i < n ∧ s.mem.read (a + i) = b := by
  rw [State.readBytes_eq, Option.ite_none_right_eq_some, Option.some.injEq] at h
  obtain ⟨-, rfl⟩ := h
  simp [List.getElem?_eq_some_iff]

section
variable {x y : Reg} {n : Nibble} {s t : State}

/-- The targets of the rows that DRW reads are the pixels the spec's formula gives (spec/43_display.md R191). -/
theorem State.mem_spriteTargets_iff_spriteHits {rows : List Byte} {q : Nat}
    (h : s.readBytes s.base n.toNat = some rows) :
    q ∈ spriteTargets (s.startColumn x) (s.startRow y) rows ↔ s.spriteHits x y n q := by
  rw [mem_spriteTargets]
  simp only [State.readBytes_getElem?_eq_some h]
  constructor
  · rintro ⟨i, b, ⟨hi, rfl⟩, hbit⟩
    exact ⟨i, hi, hbit⟩
  · rintro ⟨i, hi, hbit⟩
    exact ⟨i, _, ⟨hi, rfl⟩, hbit⟩

theorem State.spriteHits_lt {q : Nat} (h : s.spriteHits x y n q) : q < 2048 := by
  obtain ⟨i, -, j, -, -, rfl⟩ := h
  exact Nat.mod_lt _ (by decide)

/-- The targets depend on VX, VY, I and the memory alone (spec/43_display.md R191). -/
theorem State.spriteHits_congr (hx : t.readV x = s.readV x) (hy : t.readV y = s.readV y) (hi : t.index = s.index)
    (hm : ∀ a, t.mem.read a = s.mem.read a) (q : Nat) : t.spriteHits x y n q ↔ s.spriteHits x y n q := by
  simp only [State.spriteHits, hx, hy, hi, hm]

/-! ### What a draw leaves -/

/-- The targets of the rows that DRW reads are distinct, as a nibble counts at most 15 rows (spec/43_display.md R193
(a)). -/
theorem State.spriteTargets_nodup {rows : List Byte} (h : s.readBytes s.base n.toNat = some rows) :
    (spriteTargets (s.startColumn x) (s.startRow y) rows).Nodup :=
  spriteTargetsDistinct _ _ _ (State.readBytes_length h ▸ Nat.le_of_lt_succ n.isLt)

/-- A draw inverts its targets and no other pixel (spec/43_display.md R191). -/
theorem exec_drw_pixel (h : exec (.drw x y n) s = .next t) (q : Nat) :
    t.pixel q = true ↔ ¬(s.pixel q = true ↔ s.spriteHits x y n q) := by
  obtain ⟨rows, hrows, rfl⟩ := exec_drw_eq_next.mp h
  rw [s.pixel_draw x y rows q (State.spriteTargets_nodup hrows), Bool.xor_iff_ne, Ne, Bool.eq_iff_iff,
    decide_eq_true_iff, State.mem_spriteTargets_iff_spriteHits hrows]

theorem flagByte_of_iff {c : Bool} {p : Prop} (h : c = true ↔ p) : (p → flagByte c = 1) ∧ (¬p → flagByte c = 0) := by
  rw [← h]
  cases c <;> simp [flagByte]

/-- A draw leaves in VF whether one of its targets was ON (spec/43_display.md R191). -/
theorem exec_drw_VF (h : exec (.drw x y n) s = .next t) :
    ((∃ q < 2048, s.pixel q = true ∧ s.spriteHits x y n q) → t.readV VF = 1) ∧
      ((¬∃ q < 2048, s.pixel q = true ∧ s.spriteHits x y n q) → t.readV VF = 0) := by
  obtain ⟨rows, hrows, rfl⟩ := exec_drw_eq_next.mp h
  rw [s.readV_draw x y VF rows (State.spriteTargets_nodup hrows), if_pos rfl]
  refine flagByte_of_iff ?_
  simp only [List.any_eq_true, State.mem_spriteTargets_iff_spriteHits hrows]
  exact exists_congr fun q =>
    ⟨fun ⟨hhit, hon⟩ => ⟨State.spriteHits_lt hhit, hon, hhit⟩, fun ⟨_, hon, hhit⟩ => ⟨hhit, hon⟩⟩

end

/-- An instruction whose check passes completes (spec/60_exceptions.md R226). -/
theorem exec_completes {i : Instr} {s : State} (h : i.failingCheck s = none) : ∃ t, exec i s = .next t := by
  have hc := completesUnless_failingCheck i s
  rwa [h] at hc

/-- Settles O51: the pixels and VF as a draw leaves them; the rest stays by O22 and O23, and the check fails where a row
lies above 4095 (R191). -/
theorem drwTogglesTargets : Obligations.DrwTogglesTargets := by
  refine fun x y n => ⟨decodeWord_encode (i := .drw x y n) rfl, fun s => ?_⟩
  have hzero : n = 0 ↔ n.toNat = 0 := BitVec.toNat_inj.symm
  rw [Ne, hzero]
  refine ⟨fun hfit => ?_, fun hout => ?_⟩
  · obtain ⟨t, hexec⟩ := exec_completes (i := .drw x y n) (s := s) (if_neg (by omega))
    obtain ⟨hcollision, hclear⟩ := exec_drw_VF hexec
    exact ⟨t, hexec, fun q _ => exec_drw_pixel hexec q, hcollision, hclear, onlyListedRegistersChange _ _ _ hexec,
      onlyListedPartsChange _ _ _ hexec⟩
  · exact exec_eq_raiseFatal (if_pos (by omega))

/-- Settles O54: the second draw has the targets of the first and inverts them again, and it finds ON exactly those that
were OFF (R193 (b)). -/
theorem drawTwiceRestoresDisplay : Obligations.DrawTwiceRestoresDisplay := by
  intro x y n s t u hst hx hy htu
  have hframe : KeepsAllBut [.v, .fb] s t := onlyListedPartsChange _ _ _ hst
  have hhits := State.spriteHits_congr (n := n) hx hy (hframe .index (by decide)) (hframe .mem (by decide))
  have hfirst := exec_drw_pixel hst
  refine ⟨BitVec.eq_of_getLsbD_eq fun q _ => Bool.eq_iff_iff.mpr ?_, ?_⟩
  · have hsecond := exec_drw_pixel htu q
    rw [hhits, hfirst] at hsecond
    exact hsecond.trans (by tauto)
  · have hflag := exec_drw_VF htu
    have hoff : (∃ q < 2048, t.pixel q = true ∧ t.spriteHits x y n q) ↔
        ∃ q < 2048, s.pixel q = false ∧ s.spriteHits x y n q := by
      refine exists_congr fun q => and_congr_right fun _ => ?_
      rw [hhits, hfirst, ← Bool.not_eq_true]
      tauto
    rwa [hoff] at hflag

/-! ### The clear display -/

/-- Settles O50: no bit of the zero buffer is set, and CLS writes the buffer alone (R190). -/
theorem clsClearsDisplay : Obligations.ClsClearsDisplay :=
  ⟨decodeWord_encode (i := .cls) rfl, fun _ => ⟨_, rfl, fun _ => BitVec.getLsbD_zero, KeepsAllBut.refl.setFb 0⟩⟩

/-- Settles O55: on a display that is OFF, a draw turns its targets ON and meets none that is ON (R193 (c)). -/
theorem clearThenDrawGivesPattern : Obligations.ClearThenDrawGivesPattern := by
  intro x y n s t u hst htu
  cases hst
  have hoff (q : Nat) : (s.setFb 0).pixel q = false := BitVec.getLsbD_zero
  obtain ⟨-, hclear⟩ := exec_drw_VF htu
  refine ⟨fun q _ => ?_, hclear fun ⟨q, _, hon, _⟩ => Bool.false_ne_true ((hoff q).symm.trans hon)⟩
  calc u.pixel q = true
    _ ↔ ¬((s.setFb 0).pixel q = true ↔ (s.setFb 0).spriteHits x y n q) := exec_drw_pixel htu q
    _ ↔ (s.setFb 0).spriteHits x y n q := by simp
    _ ↔ s.spriteHits x y n q := State.spriteHits_congr rfl rfl rfl (fun _ => rfl) q

/-! ### The presentation view -/

section
variable {k n d : Nat} (h : d < n)
include h

theorem mul_add_lt_succ_mul : k * n + d < (k + 1) * n := by
  rw [Nat.succ_mul]
  exact Nat.add_lt_add_left h _

theorem mul_add_div_of_lt : (k * n + d) / n = k :=
  Nat.div_eq_of_lt_le (Nat.le_add_right _ _) (mul_add_lt_succ_mul h)

end

/-- Settles O56, by the division of an entry's number by the width of the view and then by SCALE (R195). -/
theorem presentationReplicatesPixels : Obligations.PresentationReplicatesPixels := by
  intro s scale r c dr dc _ hc hdr hdc
  have hcol : c * scale + dc < 64 * scale := (mul_add_lt_succ_mul hdc).trans_le (Nat.mul_le_mul_right _ hc)
  rw [State.presentation, mul_add_div_of_lt hcol, mul_add_div_of_lt hdr, Nat.mul_add_mod_of_lt hcol,
    mul_add_div_of_lt hdc]
  rfl

end Sys2Proof.Machine

/-! SUPPORT. The keypad and the timers: the key skips, the poll, the timer moves and the illegal words, with the proofs of
O57, O58, O59 and O60. -/

namespace Sys2Proof.Machine

/-! ### The key skips -/

/-- pc after a skip where a flag is clear (spec/44_keypad_timers.md R201). -/
theorem State.skipIf_not_flag_pc (s : State) (c : Bool) :
    (s.skipIf !c).pc = if c = true then s.pc else s.pc + 2 := by
  cases c <;> rfl

/-- Settles O57: with VX at most 15 both skips complete, each with the pc of its sense; above 15 their check fails (R200,
R201). -/
theorem keySkipsTestLevel : Obligations.KeySkipsTestLevel := by
  refine fun x => ⟨decodeWord_encode (i := .skp x) rfl, decodeWord_encode (i := .sknp x) rfl, fun s =>
    ⟨fun hkey => ⟨?_, ?_⟩, fun hbad => ⟨?_, ?_⟩⟩⟩
  · exact ⟨_, exec_skp_eq_next.mpr ⟨hkey, rfl⟩, rfl, KeepsAllBut.refl.skipIf _⟩
  · exact ⟨_, exec_sknp_eq_next.mpr ⟨hkey, rfl⟩, s.skipIf_not_flag_pc _, KeepsAllBut.refl.skipIf _⟩
  · exact exec_eq_raiseFatal (if_pos hbad)
  · exact exec_eq_raiseFatal (if_pos hbad)

/-! ### The poll -/

/-- Some key is held where the key vector is not zero, and so there is a least one (spec/44_keypad_timers.md R202). -/
theorem exists_lowestKeyHeld {keys : Word} (h : keys ≠ 0) : ∃ k, lowestKeyHeld keys = some k :=
  Option.ne_none_iff_exists'.mp (mt lowestKeyHeld_eq_none.mp h)

/-- A key number that was loaded into a register is read back as that number (spec/44_keypad_timers.md R202). -/
theorem State.readV_setV_ofNat_toNat (s : State) (x : Reg) {k : Nat} (hk : k < 16) :
    ((s.setV x (BitVec.ofNat 8 k)).readV x).toNat = k := by
  rw [State.readV_setV_self, BitVec.toNat_ofNat, Nat.mod_eq_of_lt (by omega)]

/-- Settles O58: with no key held the poll undoes the fetch increment, and else it is one write to VX, of the least key
held (R202). -/
theorem ldVxKPollsOrLoads : Obligations.LdVxKPollsOrLoads := by
  refine fun x => ⟨decodeWord_encode (i := .ldVxK x) rfl, fun s => ⟨fun hnone => ?_, fun hheld => ?_⟩⟩
  · exact ⟨_, exec_ldVxK_eq_next.mpr (.inl ⟨hnone, rfl⟩), rfl, KeepsAllBut.refl.setPc _⟩
  · obtain ⟨k, hk⟩ := exists_lowestKeyHeld hheld
    obtain ⟨hlt, hdown, hleast⟩ := lowestKeyHeld_eq_some.mp hk
    refine ⟨_, exec_ldVxK_eq_next.mpr (.inr ⟨k, hk, rfl⟩), ?_⟩
    rw [s.readV_setV_ofNat_toNat x hlt]
    exact ⟨hlt, hdown, hleast, s.setV_frame x _⟩

/-! ### The timer moves -/

/-- The sound is on exactly while ST is not 0 (spec/10_state.md R41). -/
theorem State.sndOn_iff {s : State} : s.sndOn = true ↔ s.st ≠ 0 := decide_eq_true_iff

/-- Settles O59: each move is one write, of DT to VX and of VX to a timer (R203, R204, R205). -/
theorem timerMoves : Obligations.TimerMoves := fun x =>
  ⟨decodeWord_encode (i := .ldVxDt x) rfl, decodeWord_encode (i := .ldDtVx x) rfl,
    decodeWord_encode (i := .ldStVx x) rfl, fun s =>
      ⟨⟨_, rfl, s.readV_setV_self x s.dt, s.setV_frame x s.dt⟩,
        ⟨_, rfl, rfl, KeepsAllBut.refl.setDt _⟩,
        ⟨_, rfl, rfl, State.sndOn_iff, KeepsAllBut.refl.setSt _⟩⟩⟩

/-! ### The illegal words -/

/-- Settles O60: the unassigned codes are those of well-formed terms, and the check of such a term always fails (R206,
R207). -/
theorem illegalWordsAreFatal : Obligations.IllegalWordsAreFatal := fun x nn =>
  ⟨fun he => decodeWord_encode (i := .illE x nn) (wellFormed_illE.mpr he),
    fun hf => decodeWord_encode (i := .illF x nn) (wellFormed_illF.mpr hf),
    fun _ => ⟨exec_eq_raiseFatal (i := .illE x nn) rfl, exec_eq_raiseFatal (i := .illF x nn) rfl⟩⟩

end Sys2Proof.Machine

/-! SUPPORT. Reset during a run, and how a step can end: which faults it raises and what they leave in the fault registers,
with the proofs of O18, O20 and O21. -/

namespace Sys2Proof.Machine

/-! ### Reset during a run -/

/-- Reset during a run with an image that fits gives the loaded state with the inputs of the run
(spec/70_reset_and_hazards.md R250). -/
theorem State.restart_of_load_eq_some {s u : State} {image : List Byte} (h : State.load image = some u) :
    s.restart image = some { u with inputs := s.inputs, drawn := s.drawn } := by
  rw [State.restart, h, Option.map_some]

/-- A list of parts that holds the inputs allows other inputs. -/
theorem KeepsAllBut.withInputs {ps : List Part} {s t : State} (hk : KeepsAllBut ps s t) (l : List HostInput) (n : Nat)
    (h : .inputs ∈ ps) : KeepsAllBut ps s { t with inputs := l, drawn := n } := fun p hp => by
  cases p with
  | inputs => exact absurd h hp
  | _ => exact hk _ hp

/-- Settles O18: the state of a load is that of reset but for its memory, and neither depends on the state that was left
(R223, R250, R251). -/
theorem resetLeavesAnyState : Obligations.ResetLeavesAnyState := by
  refine fun s image => ⟨fun hfits => ?_, fun hlong => ?_⟩
  · have hload := State.load_eq_some hfits
    refine ⟨_, _, State.restart_of_load_eq_some hload, hload, ?_, rfl, rfl, rfl, rfl, rfl⟩
    exact KeepsAllBut.refl.withInputs s.inputs s.drawn (List.mem_singleton_self Part.inputs)
  · rw [State.restart, State.load_eq_none hlong, Option.map_none]

/-! ### The causes of the checks -/

/-- The causes that some instruction's check can have: those of R221 but UnknownCategory (spec/60_exceptions.md R221,
R232). -/
def checkCauses : List (Word → Word → Fault) :=
  [.stackUnderflow, .unknownESub, .unknownFSub, .outOfBounds, .stackOverflow, .badKeyIndex]

theorem failingCheck_mem_checkCauses {i : Instr} {s : State} {cause : Word → Word → Fault}
    (h : i.failingCheck s = some cause) : cause ∈ checkCauses := by
  cases i with
  | illE x nn | illF x nn => cases h; simp [checkCauses]
  | ret | call nnn | skp x | sknp x | drw x y n | ldB x | stRegs x | ldRegs x =>
    obtain ⟨-, ⟨⟩⟩ := Option.ite_none_right_eq_some.mp h
    simp [checkCauses]
  | _ => cases h

/-- Such a cause halts the core with its code, the word and the address it was raised with (spec/60_exceptions.md R222). -/
theorem haltRegs_of_mem_checkCauses {cause : Word → Word → Fault} (h : cause ∈ checkCauses) (ir pc : Word) :
    (cause ir pc).haltRegs = ⟨true, (cause ir pc).code, ir, pc⟩ := by
  simp only [checkCauses, List.mem_cons, List.not_mem_nil, or_false] at h
  rcases h with rfl | rfl | rfl | rfl | rfl | rfl <;> rfl

/-- No check has the cause UnknownCategory (spec/60_exceptions.md R232). -/
theorem ne_unknownCategory_of_mem_checkCauses {cause : Word → Word → Fault} (h : cause ∈ checkCauses)
    (ir pc ir' pc' : Word) : cause ir pc ≠ .unknownCategory ir' pc' := by
  simp only [checkCauses, List.mem_cons, List.not_mem_nil, or_false] at h
  rcases h with rfl | rfl | rfl | rfl | rfl | rfl <;> exact nofun

/-! ### How a step can end -/

theorem decodeWord_eq_seReg {w : Word} (h : catOf w = 0x5) : decodeWord w = .seReg (xOf w) (yOf w) := by
  simp [decodeWord, h]
theorem decodeWord_eq_sneReg {w : Word} (h : catOf w = 0x9) : decodeWord w = .sneReg (xOf w) (yOf w) := by
  simp [decodeWord, h]

/-- An instruction that was decoded and whose check fails encodes to the word it was decoded from: the words that lose their
low nibble are those of SE_REG and SNE_REG, which have no check (spec/30_encoding.md R101; log entry 17). -/
theorem encode_decodeWord_of_failingCheck {w : Word} {s : State} {cause : Word → Word → Fault}
    (h : (decodeWord w).failingCheck s = some cause) : encode (decodeWord w) = w := by
  have hne : ¬(catOf w = 0x5 ∨ catOf w = 0x9) := by
    rintro (hc | hc)
    · rw [decodeWord_eq_seReg hc] at h; cases h
    · rw [decodeWord_eq_sneReg hc] at h; cases h
  rw [(decodeWord_represents w).encode_eq, canonicalWord, if_neg hne]

/-- A decoded instruction whose check fails, run after the fetch increment, reports the word and the address it was fetched
from (spec/60_exceptions.md R222). -/
theorem exec_advance_eq_fault {w : Word} {s : State} {cause : Word → Word → Fault}
    (h : (decodeWord w).failingCheck s.advance = some cause) :
    exec (decodeWord w) s.advance = .fault (cause w s.pc) := by
  rw [exec_eq_raiseFatal h, raiseFatal, encode_decodeWord_of_failingCheck h, State.advance_pc, BitVec.add_sub_cancel]

/-- The ways a step can end (spec/70_reset_and_hazards.md R254, R255, R257; spec/60_exceptions.md R221, R222). -/
inductive StepEnds (s : State) : Result → Prop
  | halted (hh : s.halt.halted = true) : StepEnds s (.fault (.alreadyHalted s.halt))
  | fetchFails (hh : s.halt.halted = false) (hf : s.fetch = none) : StepEnds s (.fault (fetchFault s))
  | checkFails {w : Word} {cause : Word → Word → Fault} (hh : s.halt.halted = false) (hf : s.fetch = some w)
      (hc : (decodeWord w).failingCheck s.advance = some cause) : StepEnds s (.fault (cause w s.pc))
  | completes {w : Word} {t : State} (hh : s.halt.halted = false) (hf : s.fetch = some w)
      (hx : exec (decodeWord w) s.advance = .next t) : StepEnds s (.next t.boundary)

/-- The one case split of the step: on the halt register, the fetch and the instruction's check. -/
theorem step_ends (s : State) : StepEnds s (step s) := by
  cases hh : s.halt.halted with
  | true => rw [step, if_pos hh]; exact .halted hh
  | false =>
    cases hf : s.fetch with
    | none => rw [step, hh, if_neg Bool.false_ne_true, runStep, hf]; exact .fetchFails hh hf
    | some w =>
      rw [step_eq_of_fetch hh hf]
      cases hc : (decodeWord w).failingCheck s.advance with
      | none =>
        obtain ⟨t, hx⟩ := exec_completes hc
        rw [hx]
        exact .completes hh hf hx
      | some cause =>
        rw [exec_advance_eq_fault hc]
        exact .checkFails hh hf hc

/-- Settles O20: a running core stops at the fetch, whose fault carries pc, or at the failing check of the fetched word's
instruction, whose fault carries the word and its address (R221, R222, R255). -/
theorem faultEntryRegisters : Obligations.FaultEntryRegisters := by
  refine ⟨fun ir pc => ⟨rfl, rfl, rfl, rfl, rfl, rfl, rfl⟩, fun s f hh hs => ?_⟩
  have hend := step_ends s
  rw [hs] at hend ⊢
  cases hend with
  | halted hh' => exact absurd (hh.symm.trans hh') Bool.false_ne_true
  | fetchFails _ hf => exact ⟨fun w hw => absurd (hf.symm.trans hw) nofun, fun _ => ⟨_, rfl⟩⟩
  | checkFails _ hf hc =>
    refine ⟨fun w hw => ?_, fun hnone => absurd (hf.symm.trans hnone) nofun⟩
    cases hf.symm.trans hw
    exact haltRegs_of_mem_checkCauses (failingCheck_mem_checkCauses hc) _ s.pc

/-- Settles O21: of the ways a step can end none is a refusal, and a fault is that of a halted core, the OutOfBounds of the
fetch or the cause of a check (R232). -/
theorem unknownCategoryNeverRaised : Obligations.UnknownCategoryNeverRaised := by
  intro s
  have hend := step_ends s
  generalize step s = outcome at hend
  cases hend with
  | halted | fetchFails | completes => exact ⟨nofun, nofun⟩
  | checkFails _ _ hc =>
    have hcause := failingCheck_mem_checkCauses hc
    exact ⟨fun ir pc h => ne_unknownCategory_of_mem_checkCauses hcause _ _ ir pc (Host.Outcome.fault.inj h), nofun⟩

end Sys2Proof.Machine

/-! SUPPORT. The step's fetch, the tick, the state at the release of reset and the reference schedule, with the proofs of
O7, O9, O10, O12, O15, O16 and O32. -/

namespace Sys2Proof.Machine

/-! ### The fetch and the halt register -/

/-- A fetched word as a number, the first byte high (spec/20_memory.md R68). -/
theorem wordOfBytes_toNat (hi lo : Byte) : (wordOfBytes hi lo).toNat = 256 * hi.toNat + lo.toNat := by
  have hdiv := wordOfBytes_toNat_div hi lo
  have hmod : (wordOfBytes hi lo).toNat % 256 = lo.toNat := by rw [← nnOf_toNat, nnOf_wordOfBytes]
  omega

/-- A running core that cannot fetch stops with the fault of the fetch (spec/70_reset_and_hazards.md R255). -/
theorem step_eq_fetchFault {s : State} (hh : s.halt.halted = false) (hf : s.fetch = none) :
    step s = .fault (fetchFault s) := by
  rw [step, hh, if_neg Bool.false_ne_true, runStep, hf]

/-- Settles O7, by the step on each side of the fetch (R254, R255). -/
theorem stepRunsDecodedInstruction : Obligations.StepRunsDecodedInstruction := by
  intro s hh
  refine ⟨fun w i hf hi => ?_, fun hf => ⟨_, step_eq_fetchFault hh hf⟩⟩
  subst hi
  exact step_eq_of_fetch hh hf

/-- Settles O9: the fetch succeeds up to 0x0FFE and fails above (R255). -/
theorem fetchIsBigEndianAndBounded : Obligations.FetchIsBigEndianAndBounded := by
  refine ⟨fun s hpc => ⟨_, ?_, wordOfBytes_toNat _ _⟩, fun s hpc hh => ⟨_, step_eq_fetchFault hh ?_⟩⟩
  · rw [State.fetch_eq, if_pos (by omega)]
  · rw [State.fetch_eq, if_neg (by omega)]

/-- Settles O10: the step looks at the halt register first (R257). -/
theorem haltedCoreTakesNoStep : Obligations.HaltedCoreTakesNoStep := by
  intro s hh
  have hstep : step s = .fault (.alreadyHalted s.halt) := if_pos hh
  exact ⟨fun t => by rw [hstep]; exact nofun, hstep⟩

/-! ### The tick -/

/-- A timer after one tick, never below zero (spec/10_state.md R42). -/
theorem decTimer_toNat (b : Byte) : (decTimer b).toNat = b.toNat - 1 := by
  rw [← timerAfter_toNat b 1, timerAfter_succ, timerAfter_zero]

/-- A tick writes the two timers alone (spec/70_reset_and_hazards.md R258). -/
theorem State.tick_frame (s : State) : KeepsAllBut [.dt, .st] s s.tick :=
  (KeepsAllBut.refl.setDt (decTimer s.dt) (by simp)).setSt (decTimer s.st) (by simp)

/-- The ticks of a boundary are that many `tick` events (spec/70_reset_and_hazards.md R258). -/
theorem State.ticks_eq_iterate (s : State) (n : Nat) : s.ticks n = State.tick^[n] s := by
  induction n with
  | zero => exact s.ticks_zero
  | succ n ih => rw [State.ticks_succ, ih, Function.iterate_succ_apply']

/-- Settles O12, by what one tick leaves of a timer, and by induction on the number of ticks (R42, R258). -/
theorem tickLowersNonzeroTimers : Obligations.TickLowersNonzeroTimers := by
  refine ⟨fun s => ⟨fun h => ?_, fun h => if_pos h, fun h => ?_, fun h => if_pos h, s.tick_frame⟩,
    State.ticks_eq_iterate⟩
  · rw [State.tick_dt, decTimer_toNat]; omega
  · rw [State.tick_st, decTimer_toNat]; omega

/-! ### The release of reset -/

/-- Settles O16: each register has the value that reset gives it (R49, R251). -/
theorem resetRegisters : Obligations.ResetRegisters :=
  ⟨fun r => Vector.getElem_replicate r.isLt, rfl, rfl, rfl, rfl, rfl, fun _ => BitVec.getLsbD_zero, rfl, rfl⟩

/-- The loader answers exactly for an image that fits (spec/70_reset_and_hazards.md R252; log entry 14). -/
theorem State.load_eq_some_iff {image : List Byte} {s : State} :
    State.load image = some s ↔ image.length ≤ 3584 ∧ State.reset.setMem (Memory.seed [] 0x200 image) = s :=
  Option.ite_none_right_eq_some.trans (and_congr_right' Option.some_inj)

/-- The reset state meets the invariant with any memory in canonical form (spec/70_reset_and_hazards.md R251; log entry
20). -/
theorem State.reset_setMem_inv {m : Memory} (hm : m.wf = true) : (State.reset.setMem m).inv = true :=
  State.inv_iff.mpr ⟨hm, rfl, nofun, (by decide : State.reset.pc.toNat ≤ 0x10FE), rfl⟩

/-- Settles O15: the empty memory is canonical, and seeding an image that fits keeps it so (R250, R252). -/
theorem loadedStateMeetsInvariant : Obligations.LoadedStateMeetsInvariant := by
  refine ⟨State.reset_setMem_inv (m := []) rfl, fun image s hload => ?_⟩
  obtain ⟨hfits, rfl⟩ := State.load_eq_some_iff.mp hload
  have hend : 0x200 + image.length ≤ 4096 := by omega
  exact State.reset_setMem_inv (Memory.wf_seed hend rfl)

/-! ### The reference schedule: one tick in every frame -/

/-- The schedule repeats with every frame (spec/70_reset_and_hazards.md R259). -/
theorem referenceTicks_mul_add (ipf k j : Nat) : referenceTicks ipf (ipf * k + j) = referenceTicks ipf j := by
  rw [referenceTicks, referenceTicks, Nat.add_assoc, Nat.mul_add_mod]

/-- Within a frame only the last step is followed by a tick (spec/70_reset_and_hazards.md R259). -/
theorem referenceTicks_of_succ_lt {ipf j : Nat} (h : j + 1 < ipf) : referenceTicks ipf j = 0 := by
  rw [referenceTicks, Nat.mod_eq_of_lt h, if_neg (Nat.succ_ne_zero j)]

theorem referenceTicks_last (m : Nat) : referenceTicks (m + 1) m = 1 := by
  rw [referenceTicks, Nat.mod_self, if_pos rfl]

/-- One frame has one tick: its last step's (spec/70_reset_and_hazards.md R259). -/
theorem sum_referenceTicks_frame {ipf : Nat} (h : 0 < ipf) :
    ((List.range ipf).map (referenceTicks ipf)).sum = 1 := by
  obtain ⟨m, rfl⟩ := Nat.exists_eq_add_one.mpr h
  have hbefore : ((List.range m).map (referenceTicks (m + 1))).sum = 0 := by
    refine List.sum_eq_zero fun x hx => ?_
    obtain ⟨j, hj, rfl⟩ := List.mem_map.mp hx
    exact referenceTicks_of_succ_lt (Nat.succ_lt_succ (List.mem_range.mp hj))
  rw [List.range_succ, List.map_append, List.sum_append, hbefore, List.map_singleton, List.sum_singleton,
    referenceTicks_last]

/-- k frames have k ticks (spec/70_reset_and_hazards.md R259). -/
theorem sum_referenceTicks {ipf : Nat} (h : 0 < ipf) (k : Nat) :
    ((List.range (ipf * k)).map (referenceTicks ipf)).sum = k := by
  induction k with
  | zero => rfl
  | succ k ih =>
    have hframe : referenceTicks ipf ∘ (ipf * k + ·) = referenceTicks ipf :=
      funext (referenceTicks_mul_add ipf k)
    rw [Nat.mul_succ, List.range_add, List.map_append, List.map_map, hframe, List.sum_append, ih,
      sum_referenceTicks_frame h]

/-! ### The reference schedule: from reset on, and put on any state -/

/-- After a load no step has been taken (log entry 13). -/
theorem State.load_sinceReset {image : List Byte} {s : State} (h : State.load image = some s) : s.sinceReset = 0 := by
  obtain ⟨-, rfl⟩ := State.load_eq_some_iff.mp h
  rfl

/-- After a reset during a run no step has been taken (log entry 13). -/
theorem State.restart_sinceReset {s t : State} {image : List Byte} (h : s.restart image = some t) :
    t.sinceReset = 0 := by
  obtain ⟨u, hload, rfl⟩ := Option.map_eq_some_iff.mp h
  exact (State.load_sinceReset hload : u.sinceReset = 0)

section
variable (s : State) (ipf n k : Nat)

/-- The coming inputs with the ticks of n steps put on the schedule: rewritten below n, as they were from n on. -/
theorem State.withReferenceTicks_inputAt :
    (s.withReferenceTicks ipf n).inputAt k = if k < n then s.referenceInput ipf k else s.inputAt k := by
  split
  next hk =>
    have hget : (s.withReferenceTicks ipf n).inputs[k]? = some (s.referenceInput ipf k) := by
      simp [State.withReferenceTicks, List.getElem?_append, hk]
    rw [State.inputAt, hget]
  next hk =>
    have hget : (s.withReferenceTicks ipf n).inputs[k]? = s.inputs[k]? := by
      have hn : n + (k - n) = k := by omega
      simp [State.withReferenceTicks, List.getElem?_append, hk, hn]
    rw [State.inputAt, State.inputAt, hget]
    rfl

theorem State.withReferenceTicks_onReferenceSchedule : (s.withReferenceTicks ipf n).onReferenceSchedule ipf n := by
  intro k hk
  rw [State.withReferenceTicks_inputAt, if_pos hk]
  rfl

theorem State.withReferenceTicks_keys_rnd :
    ((s.withReferenceTicks ipf n).inputAt k).keys = (s.inputAt k).keys ∧
      ((s.withReferenceTicks ipf n).inputAt k).rnd = (s.inputAt k).rnd := by
  rw [State.withReferenceTicks_inputAt]
  split <;> exact ⟨rfl, rfl⟩

theorem State.withReferenceTicks_frame : KeepsAllBut [.inputs] s (s.withReferenceTicks ipf n) :=
  KeepsAllBut.refl.withInputs _ s.drawn (List.mem_singleton_self Part.inputs)

end

/-! ### The reference schedule: a step on it -/

/-- No instruction writes the model's own fields: the inputs and the two counts of steps (log entries 1, 13). -/
theorem exec_inputs {i : Instr} {s t : State} (h : exec i s = .next t) :
    t.inputs = s.inputs ∧ t.drawn = s.drawn ∧ t.sinceReset = s.sinceReset :=
  onlyListedPartsChange _ _ _ h .inputs (by cases i <;> simp [Instr.mayWrite])

/-- The schedule is a matter of the inputs and of the counts of steps alone (log entry 13). -/
theorem State.onReferenceSchedule.congr {ipf n : Nat} {s t : State} (h : s.onReferenceSchedule ipf n)
    (hi : t.inputs = s.inputs) (hd : t.drawn = s.drawn) (hr : t.sinceReset = s.sinceReset) :
    t.onReferenceSchedule ipf n := by
  intro k hk
  rw [State.inputAt_congr hi hd, hr]
  exact h k hk

/-- The boundary spends one step's inputs and counts one step, so that the later steps stay on the schedule. -/
theorem State.onReferenceSchedule.boundary {ipf n : Nat} {s : State} (h : s.onReferenceSchedule ipf (n + 1)) :
    s.boundary.onReferenceSchedule ipf n := by
  intro k hk
  have hcount : s.sinceReset + 1 + k = s.sinceReset + (k + 1) := by omega
  rw [State.boundary_inputAt, State.boundary_sinceReset, hcount]
  exact h (k + 1) (Nat.succ_lt_succ hk)

/-- The boundary of a state on the schedule has a tick exactly at the end of a frame (spec/70_reset_and_hazards.md
R259). -/
theorem State.onReferenceSchedule.boundary_eq {ipf n : Nat} {s : State} (h : s.onReferenceSchedule ipf (n + 1)) :
    s.boundary = (if (s.sinceReset + 1) % ipf = 0 then s.tick else s).nextInputs := by
  have hticks : s.input.ticks = referenceTicks ipf s.sinceReset := h 0 (Nat.succ_pos n)
  rw [State.boundary, hticks, referenceTicks]
  split
  · rw [State.ticks_one]
  · rw [State.ticks_zero]

/-- Settles O32: the instruction leaves the inputs and the counts of steps, so that the boundary after it is that of the
schedule (R250, R259). -/
theorem referenceScheduleOneTickPerFrame : Obligations.ReferenceScheduleOneTickPerFrame := by
  refine ⟨fun ipf k h => sum_referenceTicks h k,
    ⟨rfl, fun image s h => State.load_sinceReset h, fun s t image h => State.restart_sinceReset h⟩,
    fun ipf n s => ⟨s.withReferenceTicks_onReferenceSchedule ipf n, s.withReferenceTicks_keys_rnd ipf n,
      s.withReferenceTicks_frame ipf n⟩,
    fun ipf n s h => h.boundary, fun ipf n s s' w h hf hs => ?_⟩
  obtain ⟨-, w', t, hf', hx, rfl⟩ := step_eq_next.mp hs
  cases hf.symm.trans hf'
  obtain ⟨hi, hd, hr⟩ : t.inputs = s.inputs ∧ t.drawn = s.drawn ∧ t.sinceReset = s.sinceReset :=
    exec_inputs (s := s.advance) hx
  have ht : t.onReferenceSchedule ipf (n + 1) := h.congr hi hd hr
  refine ⟨ht.boundary, by rw [State.boundary_sinceReset, hr], t, hx, ?_⟩
  rw [ht.boundary_eq, hr]

end Sys2Proof.Machine
